-- ==== Sys2Proof/Word.lean ====
section
/-! DEFINITION. The byte and the 104-bit word (spec 00_scope.md R6, R8). -/

namespace Sys2Proof

/-- One byte of the output stream (BYTE_BITS = 8, R6). -/
abbrev Byte := BitVec 8

/-- One encoded instruction: 104 bits, bit 0 least significant, bit 103 most significant (R8, R70). -/
abbrev Word := BitVec 104

end Sys2Proof
end

