-- ==== Sys2Proof/Machine/Bits.lean ====
section
/-! DEFINITION. Slices of a word (R8), the big-endian byte serializer (R140) and its inverse. -/

namespace Sys2Proof

/-- `w[hi:lo]` as an unsigned integer: `(w >> lo) mod 2^(hi-lo+1)` (R8). -/
def Word.slice (w : Word) (hi lo : Nat) : Nat := (w.toNat >>> lo) % 2 ^ (hi - lo + 1)

/-- Byte k of a word, k = 0 being the most significant: `(w >> (96 - 8k)) mod 256` (R53, R140). -/
def Word.byte (w : Word) (k : Nat) : Byte := BitVec.ofNat 8 ((w.toNat >>> (96 - 8 * k)) % 256)

/-- `serialize(w)`: exactly 13 bytes, most significant first (R140). -/
def serialize (w : Word) : List Byte := (List.range 13).map w.byte

/-- A byte sequence read as one big-endian integer (R53). -/
def bigEndian (bs : List Byte) : Nat := bs.foldl (fun acc b => acc * 256 + b.toNat) 0

/-- The inverse of `serialize` on 13 bytes: the sum of `bytes[k] * 2^(96-8k)` (R140). -/
def deserialize (bs : List Byte) : Word := BitVec.ofNat 104 (bigEndian bs)

end Sys2Proof
end

