-- ==== Sys2Proof/Config.lean ====
section
/-! DEFINITION. The open parameters VW and MAXREC (R7), and the one free value of the signal-level view (U6). -/

namespace Sys2Proof

/-- The parameters the spec leaves open and asks a model to take as arguments (R7, D2, D12).
`none` is the unbounded choice, which R7 allows for each. They are configuration (R34): the state carries
them so that every statement ranges over all of them, and no operation writes them (log entry 1). -/
structure Params where
  /-- VW: width in bits of an operand value input (R22); `none` is an unbounded natural number. -/
  vw : Option Nat
  /-- MAXREC: capacity of the output buffer in records (R27); `none` is unbounded. -/
  maxRec : Option Nat
  deriving DecidableEq, Repr

/-- The constraints of R7: VW is at least 33 and MAXREC at least 1. -/
def Params.wf (p : Params) : Bool :=
  (match p.vw with
    | none => true
    | some n => decide (33 ≤ n)) &&
  (match p.maxRec with
    | none => true
    | some n => decide (1 ≤ n))

/-- DESIGN CHOICE (log entry 1): the parameters at `State.reset`, both unbounded as R7 allows. -/
def Params.unbounded : Params := { vw := none, maxRec := none }

/-- FREE VALUE (U6, log entry 9): what port `pk_word` shows while `chk_ok` is 0, at the n-th cycle.
It has no body, so nothing can be proved of it. -/
opaque Config.pkWordUnspecified : Nat → Word

end Sys2Proof
end

