-- ==== Sys2Proof/Syntax.lean ====
section
/-! DEFINITION. Instruction records as syntax: kinds, fields, and one constructor of `Instr` per row of
spec/opcode_table.json (R21, R72). -/

namespace Sys2Proof

/-- InstructionKind: the closed enumeration of four kinds, in the order of R72. -/
inductive Kind where
  | loadConst
  | readMem
  | writeMem
  | not
  deriving DecidableEq, Repr

/-- The four fields of the canonical layout (R71). -/
inductive Field where
  | a
  | b
  | c
  | d
  deriving DecidableEq, Repr

/-- The two word formats (R75, R76). -/
inductive Format where
  | f3
  | f4
  deriving DecidableEq, Repr

/-- A set of operand fields, a subset of B, C, D (R21 `present`, R74 `shape`). -/
structure FieldSet where
  b : Bool
  c : Bool
  d : Bool
  deriving DecidableEq, Repr

/-- The record's mapping from present field names to unsigned integer values (R21): `none` is a field the
mapping does not hold, so an absent field's value cannot be read (log entry 5). Values are naturals with
no bound of their own (R9, R22). -/
structure Operands where
  b : Option Nat
  c : Option Nat
  d : Option Nat
  deriving DecidableEq, Repr

/-- An InstructionRecord (R21): a kind, and the mapping of its operand fields. Field A is no input (R73). -/
inductive Instr where
  /-- `LoadConst B=<b>, C=<c>` (R121). -/
  | loadConst (ops : Operands)
  /-- `ReadMem B=<b>, C=<c>, D=<d>` (R122). -/
  | readMem (ops : Operands)
  /-- `WriteMem B=<b>, C=<c>` (R123). -/
  | writeMem (ops : Operands)
  /-- `Not B=<b>, C=<c>` (R124). -/
  | not (ops : Operands)
  deriving DecidableEq, Repr

end Sys2Proof
end

