-- ==== Sys2Proof/Machine/Operands.lean ====
section
/-! DEFINITION. The layout constants of R6 as named tables, and the reading of a record's operands: kind,
presence set, field values (R21, R71 to R74). -/

namespace Sys2Proof

/-- The record's kind (R21 `r.kind`). -/
def Instr.kind (i : Instr) : Kind :=
  match i with
  | .loadConst _ => .loadConst
  | .readMem _ => .readMem
  | .writeMem _ => .writeMem
  | .not _ => .not

/-- The record's field mapping. -/
def Instr.ops (i : Instr) : Operands :=
  match i with
  | .loadConst o => o
  | .readMem o => o
  | .writeMem o => o
  | .not o => o

/-- The record of a kind and a field mapping. -/
def Kind.record (k : Kind) (o : Operands) : Instr :=
  match k with
  | .loadConst => .loadConst o
  | .readMem => .readMem o
  | .writeMem => .writeMem o
  | .not => .not o

/-- `opcode(kind)`, the value of field A (R73; OP_LOADCONST, OP_READMEM, OP_WRITEMEM, OP_NOT of R6). -/
def Kind.opcode (k : Kind) : Nat :=
  match k with
  | .loadConst => 4
  | .readMem => 6
  | .writeMem => 15
  | .not => 2

/-- The inverse of `opcode`; the other 28 values of field A are unassigned (R80). -/
def kindOfOpcode (a : Nat) : Option Kind :=
  if a = 2 then some .not
  else if a = 4 then some .loadConst
  else if a = 6 then some .readMem
  else if a = 15 then some .writeMem
  else none

/-- `fmt(kind)` (R74): F4 for ReadMem, F3 for the other three. -/
def Kind.format (k : Kind) : Format :=
  match k with
  | .loadConst => .f3
  | .readMem => .f4
  | .writeMem => .f3
  | .not => .f3

/-- `shape(kind)` (R74): {B, C, D} for ReadMem, {B, C} for the other three. -/
def Kind.shape (k : Kind) : FieldSet :=
  match k with
  | .loadConst => { b := true, c := true, d := false }
  | .readMem => { b := true, c := true, d := true }
  | .writeMem => { b := true, c := true, d := false }
  | .not => { b := true, c := true, d := false }

/-- Width of a field in bits: W_A = 5, W_B = 6, W_C = 32, W_D = 32 (R6, R71). -/
def Field.width (f : Field) : Nat :=
  match f with
  | .a => 5
  | .b => 6
  | .c => 32
  | .d => 32

/-- `max(f) = 2^width(f) - 1` (R102). -/
def Field.max (f : Field) : Nat := 2 ^ f.width - 1

/-- Offset of a field's least significant bit in each format: OFF_A = 99, OFF_B = 93, OFF_C3 = 0,
OFF_C4 = 61, OFF_D = 0 (R6). F3 has no field D. -/
def Format.offset (fm : Format) (f : Field) : Nat :=
  match f with
  | .a => 99
  | .b => 93
  | .c =>
    match fm with
    | .f3 => 0
    | .f4 => 61
  | .d => 0

/-- The fields of a format in the order the validator checks them, A, B, C, D (R103, D6). -/
def Format.fields (fm : Format) : List Field :=
  match fm with
  | .f3 => [.a, .b, .c]
  | .f4 => [.a, .b, .c, .d]

/-- The mapping of a record written `B=<b>, C=<c>` (R83). -/
def Operands.bc (b c : Nat) : Operands := { b := some b, c := some c, d := none }

/-- The mapping of a record written `B=<b>, C=<c>, D=<d>` (R83). -/
def Operands.bcd (b c d : Nat) : Operands := { b := some b, c := some c, d := some d }

/-- Which operand fields a mapping holds (R21 `present`). -/
def Operands.present (o : Operands) : FieldSet :=
  { b := o.b.isSome, c := o.c.isSome, d := o.d.isSome }

/-- `r.present` (R21). -/
def Instr.present (i : Instr) : FieldSet := i.ops.present

/-- `r.A`, `r.B`, `r.C`, `r.D` (R21): A is `opcode(kind)` in every record (R73, 90_conflicts.md C5), the
others are what the mapping holds. -/
def Instr.value (i : Instr) (f : Field) : Option Nat :=
  match f with
  | .a => some i.kind.opcode
  | .b => i.ops.b
  | .c => i.ops.c
  | .d => i.ops.d

/-- A value that a VW-bit input can carry: below 2^VW (R22). With VW unbounded every natural can. -/
def Params.carries (p : Params) (v : Nat) : Bool :=
  match p.vw with
  | none => true
  | some n => decide (v < 2 ^ n)

/-- A record that can be presented at the inputs (R22): each value it holds fits VW bits. -/
def Params.presentable (p : Params) (i : Instr) : Bool :=
  i.ops.b.all p.carries && i.ops.c.all p.carries && i.ops.d.all p.carries

/-- The buffer has room for one more record: idx < MAXREC (R143). -/
def Params.hasRoom (p : Params) (idx : Nat) : Bool :=
  match p.maxRec with
  | none => true
  | some n => decide (idx < n)

end Sys2Proof
end

