-- ==== Sys2Proof/WellFormed.lean ====
section
/-! DEFINITION. Well-formed instruction records, as a check on syntax: the field set is the kind's (R72, R74)
and every value lies in its field's legal range (R71). -/

namespace Sys2Proof

/-- A value is present and within the field's legal range [0, 2^width - 1] (R71). -/
def Field.legal (f : Field) (v : Option Nat) : Bool :=
  match v with
  | none => false
  | some n => decide (n ≤ f.max)

/-- The record carries exactly its kind's operand fields, each in range (R71, R72). -/
def Instr.wellFormed (i : Instr) : Bool :=
  match i.kind.format with
  | .f3 => Field.b.legal i.ops.b && Field.c.legal i.ops.c && i.ops.d.isNone
  | .f4 => Field.b.legal i.ops.b && Field.c.legal i.ops.c && Field.d.legal i.ops.d

end Sys2Proof
end

