-- ==== Sys2Proof/Decode.lean ====
section
/-! DEFINITION. The decoder (R131, a test aid: the block reads no word, R81), total on any bytes, rejecting by name
every word the block never produces; and after it the encoder written from the layout tables R75 and R76. -/

namespace Sys2Proof

/-- Why bytes decode to no record. All safe: R81 asks a test-aid decoder to refuse such words. -/
inductive DecodeError where
  /-- Fewer than 13 bytes (R70). -/
  | tooShort
  /-- Field A holds one of the 28 unassigned values (R80). -/
  | unassignedOpcode (a : Nat)
  /-- A bit of the padding [92:32] of F3, or of the gap [60:32] of F4, is 1 (R77, R81). -/
  | nonZeroPadding (k : Kind)
  deriving DecidableEq, Repr

/-- What a word decodes to. -/
inductive DecodedWord where
  | record (i : Instr)
  | rejected (e : DecodeError)
  deriving DecidableEq, Repr

/-- What a byte sequence decodes to: a record and the bytes after it, or a named rejection. -/
inductive Decoded where
  | record (i : Instr) (rest : List Byte)
  | rejected (e : DecodeError)
  deriving DecidableEq, Repr

/-- The record a produced word encodes (R131); every other word is rejected (R81). -/
def decodeWord (w : Word) : DecodedWord :=
  match kindOfOpcode (w.slice 103 99) with
  | none => .rejected (.unassignedOpcode (w.slice 103 99))
  | some k =>
    match k.format with
    | .f3 =>
      if w.slice 92 32 = 0 then
        .record (k.record { b := some (w.slice 98 93), c := some (w.slice 31 0), d := none })
      else .rejected (.nonZeroPadding k)
    | .f4 =>
      if w.slice 60 32 = 0 then
        .record (k.record { b := some (w.slice 98 93), c := some (w.slice 92 61), d := some (w.slice 31 0) })
      else .rejected (.nonZeroPadding k)

/-- Decode the first instruction of a stream: 13 bytes, most significant first (R53, R70). -/
def decode (bs : List Byte) : Decoded :=
  if bs.length < 13 then .rejected .tooShort
  else
    match decodeWord (deserialize (bs.take 13)) with
    | .record i => .record i (bs.drop 13)
    | .rejected e => .rejected e

/-- Format F3 by concatenation of its rows, most significant first (R75): A, B, 61 zero bits, C. -/
def layoutF3 (a : BitVec 5) (b : BitVec 6) (c : BitVec 32) : Word := a ++ b ++ 0#61 ++ c

/-- Format F4 by concatenation of its rows, most significant first (R76): A, B, C, 29 zero bits, D. -/
def layoutF4 (a : BitVec 5) (b : BitVec 6) (c d : BitVec 32) : Word := a ++ b ++ c ++ 0#29 ++ d

/-- The word of a well-formed record, read off the layout tables; a record that is not well-formed has
none (R129). It is independent of the machine's packer (Machine/Pack.lean). -/
def encode (i : Instr) : Option Word :=
  if i.wellFormed then
    match i.kind.format, i.ops with
    | .f3, { b := some b, c := some c, d := none } =>
      some (layoutF3 (BitVec.ofNat 5 i.kind.opcode) (BitVec.ofNat 6 b) (BitVec.ofNat 32 c))
    | .f4, { b := some b, c := some c, d := some d } =>
      some (layoutF4 (BitVec.ofNat 5 i.kind.opcode) (BitVec.ofNat 6 b) (BitVec.ofNat 32 c) (BitVec.ofNat 32 d))
    | _, _ => none
  else none

/-- A row of the opcode map as match and mask over the word (R84). -/
structure OpcodeRow where
  kind : Kind
  pattern : Word
  mask : Word
  deriving DecidableEq, Repr

/-- The four rows of R84 (spec/opcode_table.json). -/
def opcodeTable : List OpcodeRow :=
  [ { kind := .loadConst, pattern := 0x20000000000000000000000000, mask := 0xF81FFFFFFFFFFFFFFF00000000 },
    { kind := .readMem, pattern := 0x30000000000000000000000000, mask := 0xF8000000001FFFFFFF00000000 },
    { kind := .writeMem, pattern := 0x78000000000000000000000000, mask := 0xF81FFFFFFFFFFFFFFF00000000 },
    { kind := .not, pattern := 0x10000000000000000000000000, mask := 0xF81FFFFFFFFFFFFFFF00000000 } ]

/-- A word belongs to a row exactly when `w & mask = match` (R84). -/
def OpcodeRow.holds (r : OpcodeRow) (w : Word) : Bool := decide (w &&& r.mask = r.pattern)

/-- A word is produced, in the image of the packer, as R81 lists it. -/
def Word.produced (w : Word) : Bool :=
  ((w.slice 103 99 == 2 || w.slice 103 99 == 4 || w.slice 103 99 == 15) && w.slice 92 32 == 0) ||
  (w.slice 103 99 == 6 && w.slice 60 32 == 0)

/-- HOST NAME. The record decoded from an instruction whose bits are `w`, bit 0 least significant: the word
is laid out in its byte order, first byte most significant (R53), and given to the decoder. Bits from
`nbits` up are 0; a `w` with a bit there, or more than 104 bits, is no instruction. -/
def decodeTableWord (nbits w : Nat) : Option Instr :=
  if nbits ≤ 104 ∧ w < 2 ^ nbits then
    match decode (serialize (BitVec.ofNat 104 w)) with
    | .record i _ => some i
    | .rejected _ => none
  else none

end Sys2Proof
end

