-- ==== Sys2Proof/Machine/State.lean ====
section
/-! DEFINITION. The state of the encoder block (spec 10_state.md), its host operations and results, and the reasons a
step can stop. -/

namespace Sys2Proof.Machine

/-- `phase` (R24). -/
inductive Phase where
  /-- COLLECT: every record pushed since the program began was accepted. -/
  | collect
  /-- FAILED: some Push of the current program raised an error. -/
  | failed
  deriving DecidableEq, Repr

/-- The cause of an error report (R26, R160, R161); the taxonomy is closed (R163). -/
inductive Cause where
  | fieldOverflow
  | malformedRecord
  deriving DecidableEq, Repr

/-- The error of one record, without its index: what `check` returns (R103, R110). -/
inductive CheckError where
  /-- `MalformedRecord(kind, present)` (R161). -/
  | malformedRecord (kind : Kind) (present : FieldSet)
  /-- `FieldOverflow(field, value, max)` (R160). -/
  | fieldOverflow (field : Field) (value max : Nat)
  deriving DecidableEq, Repr

/-- The result of a check: Ok, or Err of an error (R103, R110). -/
inductive Verdict where
  | ok
  | err (e : CheckError)
  deriving DecidableEq, Repr

/-- An error report, the tuple of R26. For MalformedRecord the last three are held as A, 0, 0 (U12). -/
structure ErrorReport where
  cause : Cause
  index : Nat
  kind : Kind
  present : FieldSet
  field : Field
  value : Nat
  max : Nat
  deriving DecidableEq, Repr

/-- The host's operations (R30); there are no others (R157). -/
inductive HostOp where
  /-- Reset (R190). -/
  | reset
  /-- Push(r) (R143). -/
  | push (i : Instr)
  /-- Finish (R147, R148). -/
  | finish
  /-- Encode1(r), the stateless query (R142). -/
  | encode1 (i : Instr)
  deriving DecidableEq, Repr

/-- What an operation returns to the host. Reset and Push return nothing (R190, R143). -/
inductive Response where
  /-- Finish in COLLECT: `Ok(obuf)` (R147). -/
  | delivered (bytes : List Byte)
  /-- Finish in FAILED: `Err(err)` (R148); it carries what the register `err` holds. -/
  | rejected (report : Option ErrorReport)
  /-- Encode1 of a record that passes the check (R142). -/
  | encoded (bytes : List Byte)
  /-- Encode1 of a record that fails it; no index (R178). -/
  | encodeFailed (e : CheckError)
  deriving DecidableEq, Repr

/-- The output buffer as cells: (stream offset, byte), offsets strictly rising (R27, R51). An offset that
is not listed holds no byte of the stream and reads as no value (log entry 6). -/
abbrev Memory := List Host.Cell

/-- The canonical form of a memory: offsets strictly rising. No listed cell equals what an unlisted offset
reads as, since that is no value. -/
def Memory.wf : Memory → Bool
  | [] => true
  | [_] => true
  | c :: d :: rest => decide (c.1 < d.1) && Memory.wf (d :: rest)

/-- The state of the block (R24 to R27), the parameters it is built with (R7), and the host's side of it:
the operations not yet performed and the results already returned. -/
structure State where
  /-- `phase` (R24). -/
  phase : Phase
  /-- `idx` (R25). -/
  idx : Nat
  /-- `err` (R26). -/
  err : Option ErrorReport
  /-- `obuf` (R27). -/
  obuf : Memory
  /-- VW and MAXREC (R7, R34): written by no operation (log entry 1). -/
  params : Params
  /-- Host operations not yet performed, oldest first (R30, R57; log entry 2). -/
  inbox : List HostOp
  /-- Results returned to the host, oldest first (R142, R147, R148; log entry 3). -/
  outbox : List Response
  deriving DecidableEq, Repr

/-- Why the machine stops with a fault. -/
inductive Fault where
  /-- Raised by a Push in phase COLLECT at idx = MAXREC: the block has no step for it (R146, U4 "stuck").
  Safe: the model stops where the block waits. -/
  | pushAtCapacity
  deriving DecidableEq, Repr

/-- Why a step has no meaning. -/
inductive Refusal where
  /-- Raised only by an arm of `exec` that has no meaning yet; no arm has it now. Safe. -/
  | notModelled (mnemonic : String)
  /-- Raised by Push and Encode1 of a record that holds a value of 2^VW or more: it cannot be presented at
  VW-bit inputs (R22, U8). Safe; it never arises when VW is unbounded. -/
  | valueNotPresentable
  /-- Raised by `step` when the host has issued no operation: the block takes no step on its own (R30, R191).
  Safe: the model stops where the block waits. -/
  | noOperationPending
  deriving DecidableEq, Repr

/-- The machine right after Reset: the initial state of R33, which leaves no piece of the block's state
unspecified, with unbounded parameters (log entry 1) and nothing at the host's side (log entries 2, 3). -/
def State.reset : State :=
  { phase := .collect
    idx := 0
    err := none
    obuf := []
    params := Params.unbounded
    inbox := []
    outbox := [] }

end Sys2Proof.Machine
end

