-- ==== Sys2Proof/Machine/Validate.lean ====
section
/-! DEFINITION. The shape check and the Field Validator (spec 40_validate.md). Pure functions of one record (R106). -/

namespace Sys2Proof.Machine

/-- `shape_ok(r)`: the record carries exactly its kind's operand fields (R100). -/
def shapeOk (i : Instr) : Bool := decide (i.present = i.kind.shape)

/-- A value overflows a field exactly when it is above `max(f)`, compared whole (R102). -/
def overflows (f : Field) (v : Nat) : Bool := decide (v > f.max)

/-- The range check over a list of fields, in order, stopping at the first that overflows (R103).
DESIGN CHOICE (log entry 18): the rule is stated for a record whose shape check passed; outside that this function is
still total and skips a listed field that the record does not carry. -/
def validateFields (i : Instr) : List Field → Verdict
  | [] => .ok
  | f :: rest =>
    match i.value f with
    | none => validateFields i rest
    | some v => if overflows f v then .err (.fieldOverflow f v f.max) else validateFields i rest

/-- `validate(r)`: every field of the record's format, in the order A, B, C, D (R103, D6).
DESIGN CHOICE (log entry 18): on a record that fails the shape check, where the spec defines no result, it ranges over
the fields of the format that are present and ignores an extra D; `check` never asks it there. -/
def validate (i : Instr) : Verdict := validateFields i i.kind.format.fields

/-- `check(r)`: the shape check, then the range check (R110, D7). -/
def check (i : Instr) : Verdict :=
  if shapeOk i then validate i else .err (.malformedRecord i.kind i.present)

end Sys2Proof.Machine
end

