-- ==== Sys2Proof/Machine/Pack.lean ====
section
/-! DEFINITION. The Instruction Packer (spec 41_pack.md) in its shift-and-OR form and as multiplexers, and the
pipeline for one record and for a whole program as pure functions (R141, R150). -/

namespace Sys2Proof.Machine

/-- The OR of `field_value << field_offset` over the fields of the record's format (R120), on naturals;
none where the record lacks a field of its format. -/
def packOr (i : Instr) : Option Nat :=
  match i.kind.format, i.ops.b, i.ops.c, i.ops.d with
  | .f3, some b, some c, _ =>
    some ((i.kind.opcode <<< Format.f3.offset .a) ||| (b <<< Format.f3.offset .b) |||
      (c <<< Format.f3.offset .c))
  | .f4, some b, some c, some d =>
    some ((i.kind.opcode <<< Format.f4.offset .a) ||| (b <<< Format.f4.offset .b) |||
      (c <<< Format.f4.offset .c) ||| (d <<< Format.f4.offset .d))
  | _, _, _, _ => none

/-- A record that passes the check has every field of its format. -/
theorem packOr_isSome (i : Instr) (h : check i = .ok) : (packOr i).isSome = true := by
  rcases i with ⟨⟨b, c, d⟩⟩ | ⟨⟨b, c, d⟩⟩ | ⟨⟨b, c, d⟩⟩ | ⟨⟨b, c, d⟩⟩ <;>
    rcases b with _ | b <;> rcases c with _ | c <;> rcases d with _ | d <;>
    simp_all [check, shapeOk, Instr.present, Operands.present, Instr.ops, Instr.kind, Kind.shape,
      packOr, Kind.format]

/-- `pack(r)` (R120). Partial as R129 asks: it takes a proof that the check returned Ok. The word is the
natural number of R120, which fits 104 bits (R127). -/
def pack (i : Instr) (h : check i = .ok) : Word :=
  BitVec.ofNat 104 ((packOr i).get (packOr_isSome i h))

/-- The packer as multiplexers (R125), on the low bits of the operand inputs: `is_f4` chooses what stands at
[92:61] and [31:0]. In F3 the input `d` is ignored. -/
def packMux (k : Kind) (b : BitVec 6) (c d : BitVec 32) : Word :=
  BitVec.ofNat 5 k.opcode ++ b ++ (if k = .readMem then c else 0#32) ++ 0#29 ++
    (if k = .readMem then d else c)

/-- The result of check and packer together for one record. -/
inductive Packed where
  | word (w : Word)
  | err (e : CheckError)
  deriving DecidableEq, Repr

/-- The validator gates the packer: the packer is applied only where the check returned Ok (R105, R141). -/
def packRecord (i : Instr) : Packed :=
  match h : check i with
  | .ok => .word (pack i h)
  | .err e => .err e

/-- `Ok(bytes)` or `Err(e)` for one record. -/
inductive Encoded where
  | ok (bytes : List Byte)
  | err (e : CheckError)
  deriving DecidableEq, Repr

/-- `encode(r)`: the pipeline for one record, without index and without state (R141). -/
def encodeRecord (i : Instr) : Encoded :=
  match packRecord i with
  | .word w => .ok (serialize w)
  | .err e => .err e

/-- The report of an error raised by the record `i` at index `idx` (R145, R168): (A, 0, 0) stand in the last
three components for MalformedRecord (U12). -/
def reportOf (idx : Nat) (i : Instr) (e : CheckError) : ErrorReport :=
  match e with
  | .malformedRecord _ _ =>
    { cause := .malformedRecord, index := idx, kind := i.kind, present := i.present, field := .a, value := 0, max := 0 }
  | .fieldOverflow f v m =>
    { cause := .fieldOverflow, index := idx, kind := i.kind, present := i.present, field := f, value := v, max := m }

/-- `Ok(bytes)` or `Err(report)` for a program (R150). -/
inductive Assembled where
  | ok (bytes : List Byte)
  | err (report : ErrorReport)
  deriving DecidableEq, Repr

/-- The loop of `assemble` from record index `idx` on, with the stream built so far (R150). Like
`assemble` it takes no MAXREC (log entry 19). -/
def assembleFrom (idx : Nat) (out : List Byte) : List Instr → Assembled
  | [] => .ok out
  | i :: rest =>
    match encodeRecord i with
    | .err e => .err (reportOf idx i e)
    | .ok bs => assembleFrom (idx + 1) (out ++ bs) rest

/-- `assemble(records)` (R150).
DESIGN CHOICE (log entry 19): R150 defines it for at most MAXREC records, and R199 says that a longer program cannot be
assembled; this function takes no MAXREC and gives a sequence of any length a result, as for an unbounded MAXREC (R7).
The bound is kept by Push (R146), and no operation of the block calls this function. -/
def assemble (is : List Instr) : Assembled := assembleFrom 0 [] is

end Sys2Proof.Machine
end

