-- ==== Sys2Proof/Machine/Ops.lean ====
section
/-! DEFINITION. The named operations over the block's state: the output buffer, the entry of an error and the return
to the initial state, and the host's operations Push, Finish, Reset and Encode1 (spec 42, 60, 70). -/

namespace Sys2Proof.Machine

/-- The byte at a stream offset; none where nothing has been written (R51). -/
def Memory.read : Memory → Nat → Option Byte
  | [], _ => none
  | c :: rest, a => if c.1 = a then some c.2 else Memory.read rest a

/-- Write one byte at a stream offset, keeping offsets strictly rising. -/
def Memory.write : Memory → Nat → Byte → Memory
  | [], a, v => [(a, v)]
  | c :: rest, a, v =>
    if a < c.1 then (a, v) :: c :: rest
    else if a = c.1 then (a, v) :: rest
    else c :: Memory.write rest a v

/-- Write bytes at consecutive offsets from `a` on. -/
def Memory.writeBytes (m : Memory) (a : Nat) : List Byte → Memory
  | [] => m
  | v :: vs => Memory.writeBytes (Memory.write m a v) (a + 1) vs

/-- `MemWrite(addr, 13, w)`: most significant byte at the lowest offset (R10, R53). -/
def Memory.writeWord (m : Memory) (a : Nat) (w : Word) : Memory := Memory.writeBytes m a (serialize w)

/-- The bytes of the buffer in ascending offset order (R51, R147). -/
def Memory.bytes (m : Memory) : List Byte := m.map (·.2)

/-- The operations the host has not yet seen performed become `ops`. -/
def State.withInbox (s : State) (ops : List HostOp) : State := { s with inbox := ops }

/-- A result is returned to the host. -/
def State.respond (s : State) (r : Response) : State := { s with outbox := s.outbox ++ [r] }

/-- The effective address of the one store form: `13 * idx` (R144, R158). -/
def storeAddress (s : State) : Nat := 13 * s.idx

/-- The accepted record's word is appended and `idx` advances by 1 (R144). -/
def State.accept (s : State) (w : Word) : State :=
  { s with
    obuf := Memory.writeWord s.obuf (storeAddress s) w
    idx := s.idx + 1 }

/-- ENTERING AN ERROR (R168): the report is latched with the record's index, obuf is emptied, phase becomes
FAILED, idx is unchanged, nothing else changes. -/
def State.raise (s : State) (i : Instr) (e : CheckError) : State :=
  { s with
    err := some (reportOf s.idx i e)
    obuf := []
    phase := .failed }

/-- RETURNING: the initial state of R33, which Reset and the end of every Finish establish, and the only way
out of FAILED (R171). -/
def State.toInitial (s : State) : State :=
  { s with
    phase := .collect
    idx := 0
    err := none
    obuf := [] }

/-- Push(r), by the table of R143: discard in FAILED (R149), no step at capacity (R146), and otherwise accept
(R144) or fail (R145). A record that cannot be presented at the inputs is refused (R22). -/
def push (i : Instr) (s : State) : Host.Outcome State Fault Refusal :=
  if s.params.presentable i then
    match s.phase with
    | .failed => .next s
    | .collect =>
      if s.params.hasRoom s.idx then
        match packRecord i with
        | .word w => .next (s.accept w)
        | .err e => .next (s.raise i e)
      else .fault .pushAtCapacity
  else .refused .valueNotPresentable

/-- The result of Finish: `Ok(obuf)` in COLLECT (R147), `Err(err)` in FAILED (R148). -/
def finishResult (s : State) : Response :=
  match s.phase with
  | .collect => .delivered (Memory.bytes s.obuf)
  | .failed => .rejected s.err

/-- The result of `assemble` as Finish returns it (R147, R148, R150). -/
def Assembled.response (a : Assembled) : Response :=
  match a with
  | .ok bytes => .delivered bytes
  | .err r => .rejected (some r)

/-- Finish: the result is returned and the state becomes the initial state (R147, R148). -/
def finish (s : State) : State := (s.respond (finishResult s)).toInitial

/-- The result of Encode1: `encode(r)` (R142). -/
def encode1Result (i : Instr) : Response :=
  match encodeRecord i with
  | .ok bytes => .encoded bytes
  | .err e => .encodeFailed e

/-- Encode1(r): the result is returned and latched nowhere (R142, R178). -/
def encode1 (i : Instr) (s : State) : Host.Outcome State Fault Refusal :=
  if s.params.presentable i then .next (s.respond (encode1Result i))
  else .refused .valueNotPresentable

end Sys2Proof.Machine
end

