-- ==== Sys2Proof/Machine/FormatF3.lean ====
section
/-! DEFINITION. The meanings of the kinds of format F3: LoadConst, WriteMem and Not (R121, R123, R124). What the block
does with a record is a Push of it; it executes nothing (R50). -/

namespace Sys2Proof.Machine

/-- LoadConst (R121): Push of the record, opcode 4, format F3. -/
def execLoadConst (ops : Operands) (s : State) : Host.Outcome State Fault Refusal :=
  push (.loadConst ops) s

/-- WriteMem (R123): Push of the record, opcode 15, format F3; it accesses no memory (R50). -/
def execWriteMem (ops : Operands) (s : State) : Host.Outcome State Fault Refusal :=
  push (.writeMem ops) s

/-- Not (R124): Push of the record, opcode 2, format F3; it inverts no bit. -/
def execNot (ops : Operands) (s : State) : Host.Outcome State Fault Refusal :=
  push (.not ops) s

end Sys2Proof.Machine
end

