-- ==== Sys2Proof/Machine/FormatF4.lean ====
section
/-! DEFINITION. The meaning of the one kind of format F4: ReadMem (R122). -/

namespace Sys2Proof.Machine

/-- ReadMem (R122): Push of the record, opcode 6, format F4; it accesses no memory (R50). -/
def execReadMem (ops : Operands) (s : State) : Host.Outcome State Fault Refusal :=
  push (.readMem ops) s

end Sys2Proof.Machine
end

