-- ==== Sys2Proof/Machine/Dispatch.lean ====
section
/-! DEFINITION. One arm per kind: the meaning of presenting that record to the block. -/

namespace Sys2Proof.Machine

def exec (i : Instr) (s : State) : Host.Outcome State Fault Refusal :=
  match i with
  | .loadConst ops => Sys2Proof.Machine.execLoadConst ops s
  | .readMem ops => Sys2Proof.Machine.execReadMem ops s
  | .writeMem ops => Sys2Proof.Machine.execWriteMem ops s
  | .not ops => Sys2Proof.Machine.execNot ops s

end Sys2Proof.Machine
end

