-- ==== Sys2Proof/Machine/Step.lean ====
section
/-! DEFINITION. One step: the oldest pending host operation, whole (R12, R30, R57). -/

namespace Sys2Proof.Machine

/-- One host operation. The block takes no step on its own (R30). -/
def step (s : State) : Host.Outcome State Fault Refusal :=
  match s.inbox with
  | [] => .refused .noOperationPending
  | .reset :: rest => .next (s.withInbox rest).toInitial
  | .push i :: rest => exec i (s.withInbox rest)
  | .finish :: rest => .next (finish (s.withInbox rest))
  | .encode1 i :: rest => encode1 i (s.withInbox rest)

/-- HOST NAME. The host presents next a Push of the record that the word encodes (log entry 4): the block has no
input that is a word (R81), so the place `step` takes its next instruction from is the front of the inbox.
For bits that encode no record nothing is presented, and the very next step is refused. -/
def State.withFetchWord (s : State) (nbits w : Nat) : State :=
  match decodeTableWord nbits w with
  | some i => s.withInbox (.push i :: s.inbox)
  | none => s.withInbox []

end Sys2Proof.Machine
end

