-- ==== Sys2Proof/Laws/Check.lean ====
section
/-! SUPPORT. What the check can answer, said once. -/

namespace Sys2Proof.Machine

@[simp] theorem max_a : Field.a.max = 31 := rfl
@[simp] theorem max_b : Field.b.max = 63 := rfl
@[simp] theorem max_c : Field.c.max = 4294967295 := rfl
@[simp] theorem max_d : Field.d.max = 4294967295 := rfl

@[simp] theorem overflows_iff (f : Field) (v : Nat) : overflows f v = true ↔ f.max < v := by simp [overflows]

@[simp] theorem legal_some (f : Field) (n : Nat) : f.legal (some n) = true ↔ n ≤ f.max := by simp [Field.legal]
@[simp] theorem legal_none (f : Field) : f.legal none = false := rfl

@[simp] theorem kind_record (k : Kind) (o : Operands) : (k.record o).kind = k := by cases k <;> rfl
@[simp] theorem ops_record (k : Kind) (o : Operands) : (k.record o).ops = o := by cases k <;> rfl
@[simp] theorem record_kind_ops (i : Instr) : i.kind.record i.ops = i := by cases i <;> rfl

/-- The range check over a list of fields passes exactly when no listed field that the record holds overflows. -/
theorem validateFields_ok (i : Instr) (fs : List Field) :
    validateFields i fs = .ok ↔ ∀ f ∈ fs, ∀ v, i.value f = some v → v ≤ f.max := by
  induction fs with
  | nil => simp [validateFields]
  | cons f fs ih =>
    simp only [validateFields, List.mem_cons, forall_eq_or_imp]
    split
    · rename_i h; simp [h, ih]
    · rename_i v h
      split
      · rename_i ho
        have ho : f.max < v := by simpa using ho
        simp only [reduceCtorEq, false_iff, not_and]
        exact fun h' => absurd (h' v h) (by omega)
      · rename_i ho
        have ho : ¬ f.max < v := by simpa using ho
        rw [ih]
        simp [h]; omega

/-- The check passes exactly on a record of its kind's shape with no overflowing field. -/
theorem check_ok (i : Instr) :
    check i = .ok ↔ i.present = i.kind.shape ∧
      ∀ f ∈ i.kind.format.fields, ∀ v, i.value f = some v → v ≤ f.max := by
  rw [← validateFields_ok, check]
  split
  · rename_i h; simp_all [shapeOk, validate]
  · rename_i h; simp_all [shapeOk]

/-- A record of format F3 passes exactly with B and C present and in range and D absent. -/
theorem check_f3 (i : Instr) (hf : i.kind.format = .f3) :
    check i = .ok ↔ ∃ b c, i.ops = { b := some b, c := some c, d := none } ∧ b ≤ 63 ∧ c ≤ 4294967295 := by
  have hs : i.kind.shape = { b := true, c := true, d := false } := by
    cases i <;> first | rfl | simp [Instr.kind, Kind.format] at hf
  have ha : i.kind.opcode ≤ 31 := by cases i <;> simp [Instr.kind, Kind.opcode]
  rw [check_ok, hs, hf]
  generalize ho : i.ops = o
  rcases o with ⟨b, c, d⟩
  rcases b with _ | b <;> rcases c with _ | c <;> rcases d with _ | d <;>
    simp [Instr.present, Operands.present, ho, Format.fields, Instr.value, ha]

/-- A record of format F4 passes exactly with B, C and D present and in range. -/
theorem check_f4 (i : Instr) (hf : i.kind.format = .f4) :
    check i = .ok ↔ ∃ b c d, i.ops = { b := some b, c := some c, d := some d } ∧ b ≤ 63 ∧ c ≤ 4294967295 ∧
      d ≤ 4294967295 := by
  have hs : i.kind.shape = { b := true, c := true, d := true } := by
    cases i <;> first | rfl | simp [Instr.kind, Kind.format] at hf
  have ha : i.kind.opcode ≤ 31 := by cases i <;> simp [Instr.kind, Kind.opcode]
  rw [check_ok, hs, hf]
  generalize ho : i.ops = o
  rcases o with ⟨b, c, d⟩
  rcases b with _ | b <;> rcases c with _ | c <;> rcases d with _ | d <;>
    simp [Instr.present, Operands.present, ho, Format.fields, Instr.value, ha]

/-- The check answers Ok or an error. -/
theorem check_cases (i : Instr) : check i = .ok ∨ ∃ e, check i = .err e := by
  cases h : check i <;> simp

/-- What a failing check reports: the record's own kind and presence set, or an overflowing field B, C or D of
a well-shaped record with its whole value. -/
theorem check_err (i : Instr) (e : CheckError) (h : check i = .err e) :
    (e = .malformedRecord i.kind i.present ∧ i.present ≠ i.kind.shape) ∨
      ∃ f v, e = .fieldOverflow f v f.max ∧ i.present = i.kind.shape ∧ f ≠ .a ∧ f ∈ i.kind.format.fields ∧
        i.value f = some v ∧ f.max < v := by
  unfold check at h
  split at h
  · rename_i hs
    have hs' : i.present = i.kind.shape := by simpa [shapeOk] using hs
    right
    have key : ∀ fs : List Field, validateFields i fs = .err e →
        ∃ f v, e = .fieldOverflow f v f.max ∧ f ∈ fs ∧ i.value f = some v ∧ f.max < v := by
      intro fs
      induction fs with
      | nil => intro h; simp [validateFields] at h
      | cons f fs ih =>
        intro h
        simp only [validateFields] at h
        split at h
        · obtain ⟨g, v, h1, h2, h3⟩ := ih h
          exact ⟨g, v, h1, List.mem_cons_of_mem _ h2, h3⟩
        · rename_i v hv
          split at h
          · rename_i ho
            injection h with h
            exact ⟨f, v, h.symm, List.mem_cons_self, hv, by simpa using ho⟩
          · obtain ⟨g, v, h1, h2, h3⟩ := ih h
            exact ⟨g, v, h1, List.mem_cons_of_mem _ h2, h3⟩
    obtain ⟨f, v, h1, h2, h3, h4⟩ := key _ h
    refine ⟨f, v, h1, hs', ?_, h2, h3, h4⟩
    rintro rfl
    simp only [Instr.value, Option.some.injEq] at h3
    subst h3
    cases i <;> simp [Instr.kind, Kind.opcode] at h4
  · rename_i hs
    injection h with h
    exact .inl ⟨h.symm, by simpa [shapeOk] using hs⟩

end Sys2Proof.Machine
end

