-- ==== Sys2Proof/Laws/Pack.lean ====
section
/-! SUPPORT. The packed word as a number, and the two outcomes of check and packer together. -/

namespace Sys2Proof.Machine

@[simp] theorem serialize_length (w : Word) : (serialize w).length = 13 := by simp [serialize]

/-- Element k of the serialization. -/
theorem serialize_getElem (w : Word) (k : Nat) (h : k < (serialize w).length) :
    (serialize w)[k] = w.byte k := by simp [serialize]

theorem opcode_le (k : Kind) : k.opcode ≤ 15 := by cases k <;> simp [Kind.opcode]

/-- Fields placed by shift and OR add up, in F3: nothing collides. -/
theorem or_f3 (a b c : Nat) (hb : b < 2 ^ 6) (hc : c < 2 ^ 32) :
    (a <<< 99) ||| (b <<< 93) ||| (c <<< 0) = a * 2 ^ 99 + b * 2 ^ 93 + c := by
  have h1 : (a <<< 99) ||| (b <<< 93) = (a * 2 ^ 6 + b) <<< 93 := by
    rw [← Nat.shiftLeft_add_eq_or_of_lt (by rw [Nat.shiftLeft_eq]; omega)]
    simp only [Nat.shiftLeft_eq]; omega
  rw [h1, Nat.shiftLeft_zero, ← Nat.shiftLeft_add_eq_or_of_lt (by omega), Nat.shiftLeft_eq]; omega

/-- Fields placed by shift and OR add up, in F4. -/
theorem or_f4 (a b c d : Nat) (hb : b < 2 ^ 6) (hc : c < 2 ^ 32) (hd : d < 2 ^ 32) :
    (a <<< 99) ||| (b <<< 93) ||| (c <<< 61) ||| (d <<< 0) =
      a * 2 ^ 99 + b * 2 ^ 93 + c * 2 ^ 61 + d := by
  have h1 : (a <<< 99) ||| (b <<< 93) = (a * 2 ^ 6 + b) <<< 93 := by
    rw [← Nat.shiftLeft_add_eq_or_of_lt (by rw [Nat.shiftLeft_eq]; omega)]
    simp only [Nat.shiftLeft_eq]; omega
  have h2 : ((a * 2 ^ 6 + b) <<< 93) ||| (c <<< 61) = ((a * 2 ^ 6 + b) * 2 ^ 32 + c) <<< 61 := by
    rw [← Nat.shiftLeft_add_eq_or_of_lt (by rw [Nat.shiftLeft_eq]; omega)]
    simp only [Nat.shiftLeft_eq]; omega
  rw [h1, h2, Nat.shiftLeft_zero, ← Nat.shiftLeft_add_eq_or_of_lt (by omega), Nat.shiftLeft_eq]; omega

/-- `pack` is the OR of R120, reduced to 104 bits. -/
theorem pack_of_packOr (i : Instr) (h : check i = .ok) (n : Nat) (hn : packOr i = some n) :
    pack i h = BitVec.ofNat 104 n := by simp [pack, hn]

/-- The two outcomes of check and packer together. -/
theorem packRecord_ok (i : Instr) (h : check i = .ok) : packRecord i = .word (pack i h) := by
  unfold packRecord; split
  · rfl
  · rename_i e he; simp [h] at he

theorem packRecord_err (i : Instr) (e : CheckError) (h : check i = .err e) : packRecord i = .err e := by
  unfold packRecord; split
  · rename_i he; simp [h] at he
  · rename_i e' he; simp_all

theorem packRecord_word_iff (i : Instr) (w : Word) :
    packRecord i = .word w ↔ ∃ h : check i = .ok, w = pack i h := by
  rcases check_cases i with hc | ⟨e, hc⟩
  · simp [packRecord_ok i hc, hc, eq_comm]
  · simp [packRecord_err i e hc, hc]

theorem encodeRecord_ok (i : Instr) (h : check i = .ok) : encodeRecord i = .ok (serialize (pack i h)) := by
  simp [encodeRecord, packRecord_ok i h]

theorem encodeRecord_err (i : Instr) (e : CheckError) (h : check i = .err e) : encodeRecord i = .err e := by
  simp [encodeRecord, packRecord_err i e h]

@[simp] theorem reportOf_index (n : Nat) (i : Instr) (e : CheckError) : (reportOf n i e).index = n := by
  cases e <;> rfl

end Sys2Proof.Machine
end

