-- ==== Sys2Proof/Laws/State.lean ====
section
/-! SUPPORT. What each update of the state does to each field. -/

namespace Sys2Proof.Machine

@[simp] theorem State.withInbox_phase (s : State) (ops : List HostOp) : (s.withInbox ops).phase = s.phase := rfl
@[simp] theorem State.withInbox_idx (s : State) (ops : List HostOp) : (s.withInbox ops).idx = s.idx := rfl
@[simp] theorem State.withInbox_err (s : State) (ops : List HostOp) : (s.withInbox ops).err = s.err := rfl
@[simp] theorem State.withInbox_obuf (s : State) (ops : List HostOp) : (s.withInbox ops).obuf = s.obuf := rfl
@[simp] theorem State.withInbox_params (s : State) (ops : List HostOp) : (s.withInbox ops).params = s.params := rfl
@[simp] theorem State.withInbox_inbox (s : State) (ops : List HostOp) : (s.withInbox ops).inbox = ops := rfl
@[simp] theorem State.withInbox_outbox (s : State) (ops : List HostOp) : (s.withInbox ops).outbox = s.outbox := rfl

@[simp] theorem State.respond_phase (s : State) (r : Response) : (s.respond r).phase = s.phase := rfl
@[simp] theorem State.respond_idx (s : State) (r : Response) : (s.respond r).idx = s.idx := rfl
@[simp] theorem State.respond_err (s : State) (r : Response) : (s.respond r).err = s.err := rfl
@[simp] theorem State.respond_obuf (s : State) (r : Response) : (s.respond r).obuf = s.obuf := rfl
@[simp] theorem State.respond_params (s : State) (r : Response) : (s.respond r).params = s.params := rfl
@[simp] theorem State.respond_inbox (s : State) (r : Response) : (s.respond r).inbox = s.inbox := rfl
@[simp] theorem State.respond_outbox (s : State) (r : Response) : (s.respond r).outbox = s.outbox ++ [r] := rfl

@[simp] theorem State.accept_phase (s : State) (w : Word) : (s.accept w).phase = s.phase := rfl
@[simp] theorem State.accept_idx (s : State) (w : Word) : (s.accept w).idx = s.idx + 1 := rfl
@[simp] theorem State.accept_err (s : State) (w : Word) : (s.accept w).err = s.err := rfl
@[simp] theorem State.accept_obuf (s : State) (w : Word) : (s.accept w).obuf = Memory.writeWord s.obuf (storeAddress s) w := rfl
@[simp] theorem State.accept_params (s : State) (w : Word) : (s.accept w).params = s.params := rfl
@[simp] theorem State.accept_inbox (s : State) (w : Word) : (s.accept w).inbox = s.inbox := rfl
@[simp] theorem State.accept_outbox (s : State) (w : Word) : (s.accept w).outbox = s.outbox := rfl

@[simp] theorem State.raise_phase (s : State) (i : Instr) (e : CheckError) : (s.raise i e).phase = .failed := rfl
@[simp] theorem State.raise_idx (s : State) (i : Instr) (e : CheckError) : (s.raise i e).idx = s.idx := rfl
@[simp] theorem State.raise_err (s : State) (i : Instr) (e : CheckError) : (s.raise i e).err = some (reportOf s.idx i e) := rfl
@[simp] theorem State.raise_obuf (s : State) (i : Instr) (e : CheckError) : (s.raise i e).obuf = [] := rfl
@[simp] theorem State.raise_params (s : State) (i : Instr) (e : CheckError) : (s.raise i e).params = s.params := rfl
@[simp] theorem State.raise_inbox (s : State) (i : Instr) (e : CheckError) : (s.raise i e).inbox = s.inbox := rfl
@[simp] theorem State.raise_outbox (s : State) (i : Instr) (e : CheckError) : (s.raise i e).outbox = s.outbox := rfl

@[simp] theorem State.toInitial_phase (s : State) : (s.toInitial).phase = .collect := rfl
@[simp] theorem State.toInitial_idx (s : State) : (s.toInitial).idx = 0 := rfl
@[simp] theorem State.toInitial_err (s : State) : (s.toInitial).err = none := rfl
@[simp] theorem State.toInitial_obuf (s : State) : (s.toInitial).obuf = [] := rfl
@[simp] theorem State.toInitial_params (s : State) : (s.toInitial).params = s.params := rfl
@[simp] theorem State.toInitial_inbox (s : State) : (s.toInitial).inbox = s.inbox := rfl
@[simp] theorem State.toInitial_outbox (s : State) : (s.toInitial).outbox = s.outbox := rfl

@[simp] theorem State.reset_phase : State.reset.phase = .collect := rfl
@[simp] theorem State.reset_idx : State.reset.idx = 0 := rfl
@[simp] theorem State.reset_err : State.reset.err = none := rfl
@[simp] theorem State.reset_obuf : State.reset.obuf = [] := rfl
@[simp] theorem State.reset_params : State.reset.params = Params.unbounded := rfl
@[simp] theorem State.reset_inbox : State.reset.inbox = [] := rfl
@[simp] theorem State.reset_outbox : State.reset.outbox = [] := rfl

/-- Putting an inbox aside and setting it again loses nothing. -/
@[simp] theorem State.withInbox_withInbox (s : State) (a b : List HostOp) :
    (s.withInbox a).withInbox b = s.withInbox b := rfl

@[simp] theorem State.withInbox_self (s : State) : s.withInbox s.inbox = s := rfl

/-- The store address depends on idx alone (R158). -/
@[simp] theorem storeAddress_withInbox (s : State) (ops : List HostOp) :
    storeAddress (s.withInbox ops) = storeAddress s := rfl

end Sys2Proof.Machine
end

