-- ==== Sys2Proof/Laws/Ops.lean ====
section
/-! SUPPORT. One lemma per shared operation that says everything it can do; `exec` is Push of the record; `step` is one
host operation. -/

namespace Sys2Proof.Machine

/-- Each arm is a Push of its record. -/
theorem exec_eq_push (i : Instr) (s : State) : exec i s = push i s := by cases i <;> rfl

/-- A record whose values lie within their fields can be presented at any inputs that meet R7. -/
theorem presentable_of_check_ok (p : Params) (i : Instr) (hp : p.wf = true) (h : check i = .ok) :
    p.presentable i = true := by
  have hv : ∀ f ∈ i.kind.format.fields, ∀ v, i.value f = some v → p.carries v = true := by
    intro f hf v hv
    have hle := ((check_ok i).1 h).2 f hf v hv
    have hm : f.max ≤ 4294967295 := by cases f <;> simp
    unfold Params.carries
    split
    · rfl
    · rename_i n hn
      have : 33 ≤ n := by simp only [Params.wf, hn, Bool.and_eq_true, decide_eq_true_eq] at hp; exact hp.1
      have := Nat.pow_le_pow_right (n := 2) (by omega) this
      simp; omega
  have hall : ∀ o : Option Nat, (∀ v, o = some v → p.carries v = true) → o.all p.carries = true := by
    intro o ho; cases o <;> simp_all
  have hd : ∀ v, i.ops.d = some v → Field.d ∈ i.kind.format.fields := by
    intro v hv
    have hs := ((check_ok i).1 h).1
    have : i.present.d = true := by simp [Instr.present, Operands.present, hv]
    rw [hs] at this
    revert this
    cases i <;> simp [Instr.kind, Kind.shape, Kind.format, Format.fields]
  simp only [Params.presentable, Bool.and_eq_true]
  refine ⟨⟨hall _ fun v hb => hv .b ?_ v hb, hall _ fun v hc => hv .c ?_ v hc⟩,
    hall _ fun v he => hv .d (hd v he) v he⟩ <;>
    cases i <;> simp [Instr.kind, Kind.format, Format.fields]

/-- Push accepted (R144). -/
theorem push_accept (i : Instr) (s : State) (hp : s.params.presentable i = true) (hc : s.phase = .collect)
    (hr : s.params.hasRoom s.idx = true) (h : check i = .ok) : push i s = .next (s.accept (pack i h)) := by
  simp [push, hp, hc, hr, packRecord_ok i h]

/-- Push failing (R145). -/
theorem push_fail (i : Instr) (s : State) (e : CheckError) (hp : s.params.presentable i = true)
    (hc : s.phase = .collect) (hr : s.params.hasRoom s.idx = true) (h : check i = .err e) :
    push i s = .next (s.raise i e) := by
  simp [push, hp, hc, hr, packRecord_err i e h]

/-- Push in FAILED (R149). -/
theorem push_discard (i : Instr) (s : State) (hp : s.params.presentable i = true) (hc : s.phase = .failed) :
    push i s = .next s := by
  simp [push, hp, hc]

/-- Push at capacity (R146). -/
theorem push_full (i : Instr) (s : State) (hp : s.params.presentable i = true) (hc : s.phase = .collect)
    (hr : s.params.hasRoom s.idx = false) : push i s = .fault .pushAtCapacity := by
  simp [push, hp, hc, hr]

/-- Everything a Push that answers a next state can have done: accept, fail, or discard. -/
theorem push_next_cases (i : Instr) (s t : State) (h : push i s = .next t) :
    s.params.presentable i = true ∧
      ((s.phase = .collect ∧ s.params.hasRoom s.idx = true ∧ ∃ hc : check i = .ok, t = s.accept (pack i hc)) ∨
        (s.phase = .collect ∧ s.params.hasRoom s.idx = true ∧ ∃ e, check i = .err e ∧ t = s.raise i e) ∨
        (s.phase = .failed ∧ t = s)) := by
  rcases hp : s.params.presentable i with _ | _
  · simp [push, hp] at h
  · refine ⟨rfl, ?_⟩
    rcases hph : s.phase with _ | _
    · rcases hr : s.params.hasRoom s.idx with _ | _
      · simp [push_full i s hp hph hr] at h
      · rcases check_cases i with hc | ⟨e, hc⟩
        · rw [push_accept i s hp hph hr hc] at h
          injection h with h
          exact .inl ⟨rfl, rfl, hc, h.symm⟩
        · rw [push_fail i s e hp hph hr hc] at h
          injection h with h
          exact .inr (.inl ⟨rfl, rfl, e, hc, h.symm⟩)
    · rw [push_discard i s hp hph] at h
      injection h with h
      exact .inr (.inr ⟨rfl, h.symm⟩)

/-- A Push stops only at capacity, or on a record that cannot be presented. -/
theorem push_fault (i : Instr) (s : State) (f : Fault) (h : push i s = .fault f) :
    s.phase = .collect ∧ s.params.hasRoom s.idx = false ∧ f = .pushAtCapacity := by
  unfold push at h
  repeat' split at h
  all_goals simp_all

/-- Everything a step that answers a next state can have done. -/
theorem step_next_cases (s t : State) (h : step s = .next t) :
    ∃ op rest, s.inbox = op :: rest ∧
      ((op = .reset ∧ t = (s.withInbox rest).toInitial) ∨
        (∃ i, op = .push i ∧ push i (s.withInbox rest) = .next t) ∨
        (op = .finish ∧ t = finish (s.withInbox rest)) ∨
        (∃ i, op = .encode1 i ∧ s.params.presentable i = true ∧
          t = (s.withInbox rest).respond (encode1Result i))) := by
  unfold step at h
  split at h
  · exact absurd h (by simp)
  · rename_i rest hs; injection h with h; exact ⟨_, _, hs, .inl ⟨rfl, h.symm⟩⟩
  · rename_i i rest hs; exact ⟨_, _, hs, .inr (.inl ⟨i, rfl, by rw [← exec_eq_push]; exact h⟩)⟩
  · rename_i rest hs; injection h with h; exact ⟨_, _, hs, .inr (.inr (.inl ⟨rfl, h.symm⟩))⟩
  · rename_i i rest hs
    refine ⟨_, _, hs, .inr (.inr (.inr ⟨i, rfl, ?_⟩))⟩
    unfold encode1 at h
    split at h
    · rename_i hp; injection h with h; exact ⟨hp, h.symm⟩
    · simp at h

@[simp] theorem finish_phase (s : State) : (finish s).phase = .collect := rfl
@[simp] theorem finish_idx (s : State) : (finish s).idx = 0 := rfl
@[simp] theorem finish_err (s : State) : (finish s).err = none := rfl
@[simp] theorem finish_obuf (s : State) : (finish s).obuf = [] := rfl
@[simp] theorem finish_params (s : State) : (finish s).params = s.params := rfl
@[simp] theorem finish_inbox (s : State) : (finish s).inbox = s.inbox := rfl
@[simp] theorem finish_outbox (s : State) : (finish s).outbox = s.outbox ++ [finishResult s] := rfl

end Sys2Proof.Machine
end

