-- ==== Sys2Proof/Machine/Flags.lean ====
section
/-! DEFINITION. The block has no flags (R29). What software reads instead are the nine read-only status registers (R32),
each a view of phase, idx and err, with the numeric codes of R162. -/

namespace Sys2Proof.Machine

/-- Kind code (R31, R162): 0 LoadConst, 1 ReadMem, 2 WriteMem, 3 Not. -/
def kindCode (k : Kind) : BitVec 2 :=
  match k with
  | .loadConst => 0
  | .readMem => 1
  | .writeMem => 2
  | .not => 3

/-- The kind of a code; every code is legal (D3). -/
def kindOfCode (c : BitVec 2) : Kind :=
  if c = 0 then .loadConst
  else if c = 1 then .readMem
  else if c = 2 then .writeMem
  else .not

/-- Field code (R162): 0 A, 1 B, 2 C, 3 D. -/
def fieldCode (f : Field) : BitVec 2 :=
  match f with
  | .a => 0
  | .b => 1
  | .c => 2
  | .d => 3

/-- Cause code (R162): 1 FieldOverflow, 2 MalformedRecord; 0 is "no error" and 3 is never produced. -/
def causeCode (c : Cause) : BitVec 2 :=
  match c with
  | .fieldOverflow => 1
  | .malformedRecord => 2

/-- Presence mask (R31, R32): bit 0 B, bit 1 C, bit 2 D. -/
def presentMask (p : FieldSet) : BitVec 3 :=
  (if p.b then 1#3 else 0#3) ||| (if p.c then 2#3 else 0#3) ||| (if p.d then 4#3 else 0#3)

/-- The presence set of a mask. -/
def presentOfMask (m : BitVec 3) : FieldSet :=
  { b := m.getLsbD 0, c := m.getLsbD 1, d := m.getLsbD 2 }

/-- IW, the least width with 2^IW > MAXREC (R25); none when MAXREC is unbounded. -/
def indexWidth (p : Params) : Option Nat := p.maxRec.map (fun n => Nat.log2 n + 1)

/-- The nine status registers (R32). IDX, ERR_INDEX and ERR_VALUE have the parametric widths IW and VW and are
therefore naturals. -/
structure StatusRegs where
  st : BitVec 1
  idx : Nat
  errCause : BitVec 2
  errIndex : Nat
  errKind : BitVec 2
  errPresent : BitVec 3
  errField : BitVec 2
  errValue : Nat
  errMax : BitVec 32
  deriving DecidableEq, Repr

/-- ST.FAILED (R32): 1 exactly in phase FAILED. -/
def statusST (s : State) : BitVec 1 :=
  match s.phase with
  | .collect => 0
  | .failed => 1

/-- What the host reads on the status registers; with no error every ERR_ register reads 0 (R32). -/
def statusRegs (s : State) : StatusRegs :=
  match s.err with
  | none =>
    { st := statusST s, idx := s.idx, errCause := 0, errIndex := 0, errKind := 0, errPresent := 0, errField := 0, errValue := 0, errMax := 0 }
  | some r =>
    { st := statusST s
      idx := s.idx
      errCause := causeCode r.cause
      errIndex := r.index
      errKind := kindCode r.kind
      errPresent := presentMask r.present
      errField := fieldCode r.field
      errValue := r.value
      errMax := BitVec.ofNat 32 r.max }

end Sys2Proof.Machine
end

