-- ==== Sys2Proof/Machine/Ports.lean ====
section
/-! DEFINITION. The signal-level view of R31 (D16), one rising edge of clk at a time. R12 lets a model ignore it; it is
a view BESIDE `step`, which stays at transaction level. -/

namespace Sys2Proof.Machine

/-- The inputs sampled at one rising edge (R31). `willing` is no signal: it is the implementer's freedom to
hold ready and valid low in this cycle, since no timing is given (R200, log entry 10). -/
structure PortIn where
  rst : Bool
  cmdValid : Bool
  cmdFinish : Bool
  recKind : BitVec 2
  recPresent : BitVec 3
  recB : Nat
  recC : Nat
  recD : Nat
  outReady : Bool
  doneReady : Bool
  willing : Bool
  deriving DecidableEq, Repr

/-- One byte offered on the out channel, with out_last (R31). -/
structure OutBeat where
  byte : Byte
  last : Bool
  deriving DecidableEq, Repr

/-- The outputs in one cycle (R31). `out` and `done` are none while the channel's valid is 0. -/
structure PortOut where
  cmdReady : Bool
  chkOk : Bool
  chkCause : BitVec 2
  chkField : BitVec 2
  chkValue : Nat
  chkMax : BitVec 32
  pkWord : Word
  status : StatusRegs
  out : Option OutBeat
  done : Option Bool
  deriving DecidableEq, Repr

/-- The block's state with the Finish in progress, if any: the bytes still to be sent (R31). `draw` numbers the
cycles, for the free value on pk_word. -/
structure PortState where
  core : State
  busy : Option (List Byte)
  draw : Nat
  deriving DecidableEq, Repr

/-- The record on rec_kind, rec_present, rec_b, rec_c, rec_d; an absent field's value is ignored (R21, R31). -/
def PortIn.record (inp : PortIn) : Instr :=
  (kindOfCode inp.recKind).record
    { b := if (presentOfMask inp.recPresent).b then some inp.recB else none
      c := if (presentOfMask inp.recPresent).c then some inp.recC else none
      d := if (presentOfMask inp.recPresent).d then some inp.recD else none }

/-- The three value inputs fit VW bits (R22). -/
def PortIn.carried (inp : PortIn) (p : Params) : Bool :=
  p.carries inp.recB && p.carries inp.recC && p.carries inp.recD

/-- cmd_ready (R31): 0 from a Finish transfer to the matching done transfer, and 0 for a Push at capacity in
COLLECT; otherwise the implementer's. -/
def cmdReady (inp : PortIn) (p : PortState) : Bool :=
  inp.willing && p.busy.isNone &&
    (inp.cmdFinish || p.core.phase == .failed || p.core.params.hasRoom p.core.idx)

/-- The out channel (R31): the next byte of a Finish in progress. -/
def outBeat (inp : PortIn) (p : PortState) : Option OutBeat :=
  match p.busy with
  | some (x :: left) => if inp.willing then some { byte := x, last := left.isEmpty } else none
  | _ => none

/-- The done channel (R31): after the last byte, done_ok = 1 in COLLECT and 0 in FAILED. -/
def doneBeat (inp : PortIn) (p : PortState) : Option Bool :=
  match p.busy with
  | some [] => if inp.willing then some (p.core.phase == .collect) else none
  | _ => none

/-- chk_cause (R31, R142): 0 when the record passes. -/
def chkCause (v : Verdict) : BitVec 2 :=
  match v with
  | .ok => 0
  | .err (.fieldOverflow _ _ _) => causeCode .fieldOverflow
  | .err (.malformedRecord _ _) => causeCode .malformedRecord

/-- chk_field (R142): 0 when the record passes and for MalformedRecord. -/
def chkField (v : Verdict) : BitVec 2 :=
  match v with
  | .err (.fieldOverflow f _ _) => fieldCode f
  | _ => 0

/-- chk_value (R142). -/
def chkValue (v : Verdict) : Nat :=
  match v with
  | .err (.fieldOverflow _ x _) => x
  | _ => 0

/-- chk_max (R142). -/
def chkMax (v : Verdict) : BitVec 32 :=
  match v with
  | .err (.fieldOverflow _ _ m) => BitVec.ofNat 32 m
  | _ => 0

/-- pk_word (R31, R142): `pack` of the record when chk_ok is 1, and a free value otherwise (U6). -/
def pkWord (i : Instr) (draw : Nat) : Word :=
  match packRecord i with
  | .word w => w
  | .err _ => Config.pkWordUnspecified draw

/-- All outputs of one cycle (R31). -/
def portOut (inp : PortIn) (p : PortState) : PortOut :=
  { cmdReady := cmdReady inp p
    chkOk := check inp.record == .ok
    chkCause := chkCause (check inp.record)
    chkField := chkField (check inp.record)
    chkValue := chkValue (check inp.record)
    chkMax := chkMax (check inp.record)
    pkWord := pkWord inp.record p.draw
    status := statusRegs p.core
    out := outBeat inp p
    done := doneBeat inp p }

/-- The bytes a Finish sends: obuf in COLLECT, none in FAILED (R31, R147, R148). -/
def finishBytes (s : State) : List Byte :=
  match s.phase with
  | .collect => Memory.bytes s.obuf
  | .failed => []

/-- The byte transferred on the out channel in this cycle: a transfer happens where valid and ready are both 1 (R31, K1),
whatever rst is (DEDUCED, log entry 17: R190 gives rst precedence over a command transfer only). -/
def outTransfer (inp : PortIn) (p : PortState) : Option Byte :=
  if inp.outReady then (outBeat inp p).map (·.byte) else none

/-- The done channel transfers in this cycle: valid and ready are both 1 (R31, K1), whatever rst is (DEDUCED, log
entry 17). -/
def doneTransfer (inp : PortIn) (p : PortState) : Bool := inp.doneReady && (doneBeat inp p).isSome

/-- The block's state after the edge, by the transfers of this cycle. rst takes precedence over a command (R190). The done
transfer performs the Finish, whose result the host then has (R31).
DESIGN CHOICE (log entry 17): rst during a Finish ends it and drops the bytes not yet sent, though earlier bytes of the
stream are already out. DEDUCED (the same entry): a done transfer in the same cycle still returns its result. -/
def portCycle (inp : PortIn) (p : PortState) : Host.Outcome PortState Fault Refusal :=
  if inp.carried p.core.params then
    if inp.rst then
      .next { core := if doneTransfer inp p then finish p.core else p.core.toInitial, busy := none, draw := p.draw + 1 }
    else
      match p.busy with
      | none =>
        if inp.cmdValid && cmdReady inp p then
          if inp.cmdFinish then
            .next { core := p.core, busy := some (finishBytes p.core), draw := p.draw + 1 }
          else
            match push inp.record p.core with
            | .next s => .next { core := s, busy := none, draw := p.draw + 1 }
            | .fault r => .fault r
            | .refused r => .refused r
        else .next { p with draw := p.draw + 1 }
      | some [] =>
        if doneTransfer inp p then .next { core := finish p.core, busy := none, draw := p.draw + 1 }
        else .next { p with draw := p.draw + 1 }
      | some (_ :: left) =>
        if (outTransfer inp p).isSome then .next { core := p.core, busy := some left, draw := p.draw + 1 }
        else .next { p with draw := p.draw + 1 }
  else .refused .valueNotPresentable

/-- A sequence of cycles: the bytes transferred on the out channel, in order, and the state after them. A byte transferred
in a cycle with rst counts as sent (DEDUCED, log entry 17); the bytes rst drops are never sent (DESIGN CHOICE, the same
entry). -/
def portRun : List PortIn → PortState → List Byte → Host.Outcome (PortState × List Byte) Fault Refusal
  | [], p, sent => .next (p, sent)
  | inp :: rest, p, sent =>
    match portCycle inp p with
    | .next q => portRun rest q (sent ++ (outTransfer inp p).toList)
    | .fault r => .fault r
    | .refused r => .refused r

end Sys2Proof.Machine
end

