-- ==== Sys2Proof/Laws/Ports.lean ====
section
/-! SUPPORT. What can transfer in one cycle of the signal-level view, by the Finish in progress. -/

namespace Sys2Proof.Machine

theorem outTransfer_idle (inp : PortIn) (p : PortState) (h : p.busy = none) : outTransfer inp p = none := by
  simp [outTransfer, outBeat, h]

theorem outTransfer_drained (inp : PortIn) (p : PortState) (h : p.busy = some []) : outTransfer inp p = none := by
  simp [outTransfer, outBeat, h]

/-- While bytes are left, the next one is transferred exactly where both sides are ready. -/
theorem outTransfer_sending (inp : PortIn) (p : PortState) (x : Byte) (left : List Byte) (h : p.busy = some (x :: left)) :
    outTransfer inp p = if inp.outReady && inp.willing then some x else none := by
  cases ho : inp.outReady <;> cases hw : inp.willing <;> simp [outTransfer, outBeat, h, ho, hw]

theorem doneTransfer_idle (inp : PortIn) (p : PortState) (h : p.busy = none) : doneTransfer inp p = false := by
  simp [doneTransfer, doneBeat, h]

theorem doneTransfer_sending (inp : PortIn) (p : PortState) (x : Byte) (left : List Byte)
    (h : p.busy = some (x :: left)) : doneTransfer inp p = false := by
  simp [doneTransfer, doneBeat, h]

/-- Once the bytes are out, the done transfer happens exactly where both sides are ready. -/
theorem doneTransfer_drained (inp : PortIn) (p : PortState) (h : p.busy = some []) :
    doneTransfer inp p = (inp.doneReady && inp.willing) := by
  cases hw : inp.willing <;> simp [doneTransfer, doneBeat, h, hw]

/-- A transfer on the out channel is a byte offered and taken, whatever rst is. -/
theorem outTransfer_eq_some (inp : PortIn) (p : PortState) (x : Byte) :
    outTransfer inp p = some x ↔ inp.outReady = true ∧ ∃ beat, outBeat inp p = some beat ∧ beat.byte = x := by
  cases ho : inp.outReady <;> simp [outTransfer, ho]

/-- One cycle in the run: its byte, if one is transferred, and then the rest. -/
theorem portRun_next (inp : PortIn) (rest : List PortIn) (p q : PortState) (sent : List Byte)
    (h : portCycle inp p = .next q) :
    portRun (inp :: rest) p sent = portRun rest q (sent ++ (outTransfer inp p).toList) := by
  simp [portRun, h]

end Sys2Proof.Machine
end

