-- ==== Sys2Proof/Laws/Run.lean ====
section
/-! SUPPORT. Runs of the core, one step at a time. -/

namespace Sys2Proof.Machine

@[simp] theorem core_run_zero (s : State) : Sys2Proof.core.run 0 s = .next s := rfl

/-- A run whose first step answers a next state goes on from there. -/
theorem core_run_next (k : Nat) (s t : State) (h : step s = .next t) :
    Sys2Proof.core.run (k + 1) s = Sys2Proof.core.run k t := by
  have h' : Sys2Proof.core.step s = .next t := h
  simp only [Host.Core.run, h']

/-- A run whose first step faults ends in that fault. -/
theorem core_run_fault (k : Nat) (s : State) (f : Fault) (h : step s = .fault f) :
    Sys2Proof.core.run (k + 1) s = .fault f := by
  have h' : Sys2Proof.core.step s = .fault f := h
  simp only [Host.Core.run, h']

/-- A run whose first step is refused ends in that refusal. -/
theorem core_run_refused (k : Nat) (s : State) (r : Refusal) (h : step s = .refused r) :
    Sys2Proof.core.run (k + 1) s = .refused r := by
  have h' : Sys2Proof.core.step s = .refused r := h
  simp only [Host.Core.run, h']

/-- A step faults only on a Push at capacity. -/
theorem step_fault (s : State) (f : Fault) (h : step s = .fault f) :
    f = .pushAtCapacity ∧ ∃ i rest, s.inbox = .push i :: rest ∧ s.phase = .collect ∧
      s.params.hasRoom s.idx = false := by
  unfold step at h
  split at h
  · exact absurd h (by simp)
  · exact absurd h (by simp)
  · rename_i i rest hs
    rw [exec_eq_push] at h
    obtain ⟨h1, h2, h3⟩ := push_fault i (s.withInbox rest) f h
    exact ⟨h3, i, rest, hs, h1, h2⟩
  · exact absurd h (by simp)
  · unfold encode1 at h; split at h <;> simp at h

end Sys2Proof.Machine
end

