-- ==== Sys2Proof/Safety.lean ====
section
/-! DEFINITION. The invariant of the block (R28), what makes an error report sound (R26), and what counts as a safe
result: a delivered stream is always a whole program's. -/

namespace Sys2Proof.Machine

/-- An error report says what its cause requires (R26, R160, R161): an overflowing field of a well-shaped record
with its whole value and the field's maximum, or a presence set that is not the kind's shape. -/
def ErrorReport.sound (p : Params) (r : ErrorReport) : Bool :=
  match r.cause with
  | .fieldOverflow =>
    decide (r.present = r.kind.shape) && decide (r.field ≠ .a) && decide (r.field ∈ r.kind.format.fields) &&
      decide (r.max = r.field.max) && decide (r.max < r.value) && p.carries r.value
  | .malformedRecord =>
    decide (r.present ≠ r.kind.shape) && decide (r.field = .a) && decide (r.value = 0) && decide (r.max = 0)

/-- `idx` is within the capacity (R25). -/
def State.withinCapacity (s : State) : Prop := ∀ n, s.params.maxRec = some n → s.idx ≤ n

/-- The block accepts a record that passes the check: parameters as R7 asks, phase COLLECT, idx < MAXREC (R143). -/
def State.ready (s : State) : Prop :=
  s.params.wf = true ∧ s.phase = .collect ∧ s.params.hasRoom s.idx = true

/-- The invariant that holds between host operations (R28). In COLLECT the buffer holds, at offsets
0 to 13 * idx - 1, the assembled stream of some idx records; in FAILED it is empty and the report stands. -/
structure State.Inv (s : State) : Prop where
  /-- The parameters meet R7. -/
  paramsWf : s.params.wf = true
  /-- The buffer is in its canonical form. -/
  canonical : Memory.wf s.obuf = true
  /-- idx is at most MAXREC (R25). -/
  capacity : s.withinCapacity
  /-- COLLECT (R28). -/
  collecting : s.phase = .collect →
    s.err = none ∧ s.obuf.map (·.1) = List.range (13 * s.idx) ∧
      ∃ is : List Instr, is.length = s.idx ∧ assemble is = .ok (Memory.bytes s.obuf)
  /-- FAILED (R28). -/
  failed : s.phase = .failed →
    s.obuf = [] ∧ s.params.hasRoom s.idx = true ∧
      ∃ r, s.err = some r ∧ r.index = s.idx ∧ r.sound s.params = true

/-- Every stream delivered so far is the whole stream of some program whose records all passed the check (R27). -/
def State.outboxSound (s : State) : Prop :=
  ∀ bytes, Response.delivered bytes ∈ s.outbox → ∃ is : List Instr, assemble is = .ok bytes

/-- A run of the block is safe: no number of steps ends in a fault. -/
def State.safe (s : State) : Prop := ∀ k f, Sys2Proof.core.run k s ≠ .fault f

end Sys2Proof.Machine
end

