-- ==== Sys2Proof/Certificates/Slice0/Obligations.lean ====
section
/-! DEFINITION. The statements for the provers. Each docstring names the rules of spec/ it formalises. A statement marked
DERIVED rests on a decision D<n> of spec/92_eei_decisions.md or on an inference the spec marks [derived]. -/

open Sys2Proof Sys2Proof.Machine

/-! The check (spec 40_validate.md). -/

/-- R102, R107: max(A) = 31, max(B) = 63, max(C) = max(D) = 4294967295, and a value overflows exactly when it is above
the maximum; for a record of its kind's shape the validator accepts exactly when every field of the format is at
most 2^width - 1, and a value of 2^width or more makes it fail with an overflowing field, its value reported whole. -/
def Obligations.ValidatorAcceptsExactlyTheLegalRange : Prop :=
  (Field.a.max = 31 ∧ Field.b.max = 63 ∧ Field.c.max = 4294967295 ∧ Field.d.max = 4294967295 ∧
    ∀ (f : Field) (v : Nat), overflows f v = true ↔ f.max < v) ∧
  ∀ i : Instr, shapeOk i = true →
    (validate i = .ok ↔ ∀ f ∈ i.kind.format.fields, ∀ v, i.value f = some v → v ≤ 2 ^ f.width - 1) ∧
    (∀ f ∈ i.kind.format.fields, ∀ v, i.value f = some v → 2 ^ f.width ≤ v →
      ∃ g x, validate i = .err (.fieldOverflow g x (2 ^ g.width - 1)) ∧ i.value g = some x ∧ 2 ^ g.width - 1 < x)

/-- R100, R101, R103, R110 (DERIVED: D6 the order A, B, C, D, D7 shape before range): the whole verdict, for every kind
and every mapping. -/
def Obligations.CheckVerdictForEveryRecord : Prop :=
  (∀ (k : Kind) (o : Operands), o.present ≠ k.shape → check (k.record o) = .err (.malformedRecord k o.present)) ∧
  (∀ (k : Kind) (b c : Nat), k.format = .f3 →
    check (k.record (Operands.bc b c)) =
      if 63 < b then .err (.fieldOverflow .b b 63)
      else if 4294967295 < c then .err (.fieldOverflow .c c 4294967295)
      else .ok) ∧
  (∀ b c d : Nat,
    check (.readMem (Operands.bcd b c d)) =
      if 63 < b then .err (.fieldOverflow .b b 63)
      else if 4294967295 < c then .err (.fieldOverflow .c c 4294967295)
      else if 4294967295 < d then .err (.fieldOverflow .d d 4294967295)
      else .ok)

/-- R108 (DERIVED): a value overflows a field exactly when some bit at or above the field's width is 1, and otherwise
its low bits are the value. -/
def Obligations.OverflowIsAHighBit : Prop :=
  ∀ (f : Field) (v : Nat),
    (overflows f v = true ↔ ∃ k, f.width ≤ k ∧ v.testBit k = true) ∧
    (overflows f v = false → v % 2 ^ f.width = v)

/-- R71, R72, R110 (DERIVED): the static well-formedness of a record and the machine's check agree. -/
def Obligations.WellFormedExactlyWhenCheckPasses : Prop :=
  ∀ i : Instr, i.wellFormed = true ↔ check i = .ok

/-! The packer (spec 41_pack.md). -/

/-- R121, whole (DERIVED: the byte values are the spec's own inference from R120, as R121 and N13 mark them): the
word of LoadConst, its fields, the errors of the preceding check, the corner cases and the
worked example. -/
def Obligations.LoadConstIsEncodedAsSpecified : Prop :=
  (∀ b c : Nat, b ≤ 63 → c ≤ 4294967295 →
    ∃ h : check (.loadConst (Operands.bc b c)) = .ok,
      (pack _ h).toNat = (4 <<< 99) ||| (b <<< 93) ||| c ∧
      (pack _ h).slice 103 99 = 4 ∧ (pack _ h).slice 98 93 = b ∧
      (pack _ h).slice 92 32 = 0 ∧ (pack _ h).slice 31 0 = c) ∧
  (∀ o : Operands, o.present ≠ { b := true, c := true, d := false } →
    check (.loadConst o) = .err (.malformedRecord .loadConst o.present)) ∧
  (∀ b c : Nat, 63 < b ∨ 4294967295 < c →
    ∃ f v, check (.loadConst (Operands.bc b c)) = .err (.fieldOverflow f v f.max) ∧
      (Instr.loadConst (Operands.bc b c)).value f = some v ∧ f.max < v) ∧
  encodeRecord (.loadConst (Operands.bc 0 0)) = .ok [0x20, 0, 0, 0, 0, 0, 0, 0, 0, 0, 0, 0, 0] ∧
  encodeRecord (.loadConst (Operands.bc 63 4294967295)) =
    .ok [0x27, 0xE0, 0, 0, 0, 0, 0, 0, 0, 0xFF, 0xFF, 0xFF, 0xFF] ∧
  encodeRecord (.loadConst (Operands.bc 31 140)) = .ok [0x23, 0xE0, 0, 0, 0, 0, 0, 0, 0, 0, 0, 0, 0x8C]

/-- R122, whole (DERIVED: the byte values are the spec's own inference from R120, as R122 and N13 mark them): the
word of ReadMem, its fields and the bytes of its gap, the errors of the preceding check, the corner
cases and the worked example; ReadMem is the only kind that carries D and the only one whose C is at offset 61. -/
def Obligations.ReadMemIsEncodedAsSpecified : Prop :=
  (∀ k : Kind, (k.shape.d = true ↔ k = .readMem) ∧ (k.format.offset .c = 61 ↔ k = .readMem)) ∧
  (∀ b c d : Nat, b ≤ 63 → c ≤ 4294967295 → d ≤ 4294967295 →
    ∃ h : check (.readMem (Operands.bcd b c d)) = .ok,
      (pack _ h).toNat = (6 <<< 99) ||| (b <<< 93) ||| (c <<< 61) ||| d ∧
      (pack _ h).slice 103 99 = 6 ∧ (pack _ h).slice 98 93 = b ∧ (pack _ h).slice 92 61 = c ∧
      (pack _ h).slice 60 32 = 0 ∧ (pack _ h).slice 31 0 = d ∧
      (pack _ h).byte 6 = 0 ∧ (pack _ h).byte 7 = 0 ∧ (pack _ h).byte 8 = 0 ∧
      ((pack _ h).byte 5).toNat % 32 = 0) ∧
  (∀ o : Operands, o.present ≠ { b := true, c := true, d := true } →
    check (.readMem o) = .err (.malformedRecord .readMem o.present)) ∧
  (∀ b c d : Nat, 63 < b ∨ 4294967295 < c ∨ 4294967295 < d →
    ∃ f v, check (.readMem (Operands.bcd b c d)) = .err (.fieldOverflow f v f.max) ∧
      (Instr.readMem (Operands.bcd b c d)).value f = some v ∧ f.max < v) ∧
  encodeRecord (.readMem (Operands.bcd 0 0 0)) = .ok [0x30, 0, 0, 0, 0, 0, 0, 0, 0, 0, 0, 0, 0] ∧
  encodeRecord (.readMem (Operands.bcd 63 4294967295 4294967295)) =
    .ok [0x37, 0xFF, 0xFF, 0xFF, 0xFF, 0xE0, 0, 0, 0, 0xFF, 0xFF, 0xFF, 0xFF] ∧
  encodeRecord (.readMem (Operands.bcd 0 1 0)) = .ok [0x30, 0, 0, 0, 0, 0x20, 0, 0, 0, 0, 0, 0, 0] ∧
  encodeRecord (.readMem (Operands.bcd 0 0x80000000 0)) = .ok [0x30, 0x10, 0, 0, 0, 0, 0, 0, 0, 0, 0, 0, 0] ∧
  encodeRecord (.readMem (Operands.bcd 0 0 4294967295)) =
    .ok [0x30, 0, 0, 0, 0, 0, 0, 0, 0, 0xFF, 0xFF, 0xFF, 0xFF] ∧
  encodeRecord (.readMem (Operands.bcd 29 344 265)) =
    .ok [0x33, 0xA0, 0, 0, 0x2B, 0, 0, 0, 0, 0, 0, 1, 9]

/-- R123, whole, with the largest first byte of any kind (DERIVED: the byte values are the spec's own inference from
R120, as R123 and N13 mark them). -/
def Obligations.WriteMemIsEncodedAsSpecified : Prop :=
  (∀ b c : Nat, b ≤ 63 → c ≤ 4294967295 →
    ∃ h : check (.writeMem (Operands.bc b c)) = .ok,
      (pack _ h).toNat = (15 <<< 99) ||| (b <<< 93) ||| c ∧
      (pack _ h).slice 103 99 = 15 ∧ (pack _ h).slice 98 93 = b ∧
      (pack _ h).slice 92 32 = 0 ∧ (pack _ h).slice 31 0 = c ∧
      (32 ≤ b → 0x7C ≤ ((pack _ h).byte 0).toNat)) ∧
  (∀ (i : Instr) (h : check i = .ok), ((pack i h).byte 0).toNat ≤ 0x7F) ∧
  (∀ o : Operands, o.present ≠ { b := true, c := true, d := false } →
    check (.writeMem o) = .err (.malformedRecord .writeMem o.present)) ∧
  (∀ b c : Nat, 63 < b ∨ 4294967295 < c →
    ∃ f v, check (.writeMem (Operands.bc b c)) = .err (.fieldOverflow f v f.max) ∧
      (Instr.writeMem (Operands.bc b c)).value f = some v ∧ f.max < v) ∧
  encodeRecord (.writeMem (Operands.bc 0 0)) = .ok [0x78, 0, 0, 0, 0, 0, 0, 0, 0, 0, 0, 0, 0] ∧
  encodeRecord (.writeMem (Operands.bc 63 4294967295)) =
    .ok [0x7F, 0xE0, 0, 0, 0, 0, 0, 0, 0, 0xFF, 0xFF, 0xFF, 0xFF] ∧
  encodeRecord (.writeMem (Operands.bc 63 403)) = .ok [0x7F, 0xE0, 0, 0, 0, 0, 0, 0, 0, 0, 0, 1, 0x93] ∧
  encodeRecord (.writeMem (Operands.bc 64 403)) = .err (.fieldOverflow .b 64 63)

/-- R124, whole (DERIVED: the byte values are the spec's own inference from R120, as R124 and N13 mark them). No bit of the operands is inverted: the slots hold the operands themselves. -/
def Obligations.NotIsEncodedAsSpecified : Prop :=
  (∀ b c : Nat, b ≤ 63 → c ≤ 4294967295 →
    ∃ h : check (.not (Operands.bc b c)) = .ok,
      (pack _ h).toNat = (2 <<< 99) ||| (b <<< 93) ||| c ∧
      (pack _ h).slice 103 99 = 2 ∧ (pack _ h).slice 98 93 = b ∧
      (pack _ h).slice 92 32 = 0 ∧ (pack _ h).slice 31 0 = c) ∧
  (∀ o : Operands, o.present ≠ { b := true, c := true, d := false } →
    check (.not o) = .err (.malformedRecord .not o.present)) ∧
  (∀ b c : Nat, 63 < b ∨ 4294967295 < c →
    ∃ f v, check (.not (Operands.bc b c)) = .err (.fieldOverflow f v f.max) ∧
      (Instr.not (Operands.bc b c)).value f = some v ∧ f.max < v) ∧
  encodeRecord (.not (Operands.bc 0 0)) = .ok [0x10, 0, 0, 0, 0, 0, 0, 0, 0, 0, 0, 0, 0] ∧
  encodeRecord (.not (Operands.bc 63 4294967295)) =
    .ok [0x17, 0xE0, 0, 0, 0, 0, 0, 0, 0, 0xFF, 0xFF, 0xFF, 0xFF] ∧
  encodeRecord (.not (Operands.bc 45 240)) = .ok [0x15, 0xA0, 0, 0, 0, 0, 0, 0, 0, 0, 0, 0, 0xF0]

/-- R77, R79: in a packed word every field of the format stands unaltered in its slot, and every bit that no field
covers is zero. -/
def Obligations.FieldsStandInTheirSlotsAndOtherBitsAreZero : Prop :=
  ∀ (i : Instr) (h : check i = .ok),
    (∀ f ∈ i.kind.format.fields, ∀ v, i.value f = some v →
      (pack i h).slice (i.kind.format.offset f + f.width - 1) (i.kind.format.offset f) = v) ∧
    (∀ k < 104, (∀ f ∈ i.kind.format.fields,
        k < i.kind.format.offset f ∨ i.kind.format.offset f + f.width ≤ k) →
      (pack i h).getLsbD k = false)

/-- R127 (DERIVED): the OR of R120 loses nothing: the 104-bit word is that natural number, and it is the sum of the
shifted fields. -/
def Obligations.PackingLosesNothing : Prop :=
  ∀ (i : Instr) (h : check i = .ok),
    packOr i = some (pack i h).toNat ∧
    (∀ b c, i.ops = Operands.bc b c → (pack i h).toNat = i.kind.opcode * 2 ^ 99 + b * 2 ^ 93 + c) ∧
    (∀ b c d, i.ops = Operands.bcd b c d →
      (pack i h).toNat = i.kind.opcode * 2 ^ 99 + b * 2 ^ 93 + c * 2 ^ 61 + d)

/-- R125 (DERIVED): the multiplexer form computes the same word, on the low bits of the operands, whatever the ignored
input d carries in F3. -/
def Obligations.MultiplexersComputeThePackedWord : Prop :=
  ∀ (i : Instr) (h : check i = .ok) (b c d : Nat), i.ops.b = some b → i.ops.c = some c →
    (i.kind = .readMem → i.ops.d = some d) →
    packMux i.kind (BitVec.ofNat 6 b) (BitVec.ofNat 32 c) (BitVec.ofNat 32 d) = pack i h

/-- R75, R76, R129 (DERIVED): the encoder read off the layout tables gives the packed word of every record that passes
the check, and no word of any other. -/
def Obligations.LayoutTablesAgreeWithThePacker : Prop :=
  (∀ (i : Instr) (h : check i = .ok), encode i = some (pack i h)) ∧
  (∀ (i : Instr) (e : CheckError), check i = .err e → encode i = none)

/-- R126 (DERIVED): the 13 bytes of the word in terms of the fields. -/
def Obligations.BytesOfTheWordByField : Prop :=
  (∀ (i : Instr) (h : check i = .ok) (b c : Nat), i.ops = Operands.bc b c →
    (serialize (pack i h)).map BitVec.toNat =
      [8 * i.kind.opcode + b / 8, 32 * (b % 8), 0, 0, 0, 0, 0, 0, 0,
        c / 2 ^ 24, c / 2 ^ 16 % 256, c / 2 ^ 8 % 256, c % 256]) ∧
  (∀ (i : Instr) (h : check i = .ok) (b c d : Nat), i.ops = Operands.bcd b c d →
    (serialize (pack i h)).map BitVec.toNat =
      [8 * i.kind.opcode + b / 8, 32 * (b % 8) + c / 2 ^ 27, c / 2 ^ 19 % 256, c / 2 ^ 11 % 256, c / 2 ^ 3 % 256,
        32 * (c % 8), 0, 0, 0, d / 2 ^ 24, d / 2 ^ 16 % 256, d / 2 ^ 8 % 256, d % 256])

/-- R130 (DERIVED): packing is injective over all records that pass the check, kinds included. -/
def Obligations.PackingIsInjective : Prop :=
  ∀ (i j : Instr) (hi : check i = .ok) (hj : check j = .ok),
    serialize (pack i hi) = serialize (pack j hj) → i = j

/-- R81, R130 (DERIVED): the words R81 lists are exactly the packer's image, and the decoder refuses exactly the
others. -/
def Obligations.ProducedWordsAreTheImageOfThePacker : Prop :=
  ∀ w : Word,
    (w.produced = true ↔ ∃ (i : Instr) (h : check i = .ok), pack i h = w) ∧
    ((∃ e, decodeWord w = .rejected e) ↔ w.produced = false)

/-- R140: exactly 13 bytes, element k being `(w >> (96 - 8k)) mod 256`; the inverse is the weighted sum; byte 0 of a
packed word is at least 10 hexadecimal; the example. -/
def Obligations.SerializationIsBigEndianAndInvertible : Prop :=
  (∀ w : Word, (serialize w).length = 13 ∧
    (∀ k < 13, ((serialize w)[k]?).map BitVec.toNat = some ((w.toNat >>> (96 - 8 * k)) % 256)) ∧
    (∀ k < 13, ((serialize w)[k]?).map BitVec.toNat = some (w.slice (103 - 8 * k) (96 - 8 * k))) ∧
    w.toNat = ∑ k ∈ Finset.range 13, (w.byte k).toNat * 2 ^ (96 - 8 * k) ∧
    deserialize (serialize w) = w) ∧
  (∀ (i : Instr) (h : check i = .ok), 0x10 ≤ ((pack i h).byte 0).toNat) ∧
  serialize 0x23E0000000000000000000008C = [0x23, 0xE0, 0, 0, 0, 0, 0, 0, 0, 0, 0, 0, 0x8C]

/-! Decoding (the inverse of R131, a test aid). -/

/-- R131 (DERIVED): decoding the encoded bytes of any well-formed record of any kind gives it back, with the bytes that
follow. -/
def Obligations.DecodeOfEncodeIsTheRecord : Prop :=
  ∀ (i : Instr) (rest : List Byte), i.wellFormed = true →
    ∃ w, encode i = some w ∧ decode (serialize w ++ rest) = .record i rest

/-- R131, R81 (DERIVED): bytes that decode are the encoding of the record they decode to, which passes the check. -/
def Obligations.DecodedBytesAreTheEncoding : Prop :=
  ∀ (bs rest : List Byte) (i : Instr), decode bs = .record i rest →
    ∃ h : check i = .ok, bs = serialize (pack i h) ++ rest

/-- R84 (DERIVED): a word belongs to a row by match and mask exactly when it decodes to that row's kind. -/
def Obligations.MatchAndMaskDecideTheKind : Prop :=
  ∀ (w : Word) (k : Kind),
    (∃ row ∈ opcodeTable, row.kind = k ∧ row.holds w = true) ↔ ∃ i, decodeWord w = .record i ∧ i.kind = k

/-- 95_test_vectors.md S1, S2, S3, S5, V74, V75 (DERIVED): words written out from the layout decode to what they stand
for, and two words that are not produced are refused by name. -/
def Obligations.WordsFromTheLayoutDecode : Prop :=
  decodeTableWord 104 0x23E0000000000000000000008C = some (.loadConst (Operands.bc 31 140)) ∧
  decodeTableWord 104 0x33A000002B0000000000000109 = some (.readMem (Operands.bcd 29 344 265)) ∧
  decodeTableWord 104 0x7FE00000000000000000000193 = some (.writeMem (Operands.bc 63 403)) ∧
  decodeTableWord 104 0x15A000000000000000000000F0 = some (.not (Operands.bc 45 240)) ∧
  decodeWord 0x20000000000000000100000000 = .rejected (.nonZeroPadding .loadConst) ∧
  decodeWord 0x08000000000000000000000000 = .rejected (.unassignedOpcode 1)

/-! Push: the meaning of a kind (spec 42_serialize_assemble.md). -/

/-- R121, R123, R124, R144 (DERIVED: each in part): LoadConst, WriteMem and Not in range complete in every state that accepts: the
word `(opcode << 99) | (b << 93) | c` is written at 13 * idx, idx advances by 1, nothing else changes. -/
def Obligations.FormatF3RecordsComplete : Prop :=
  ∀ (s : State) (b c : Nat), s.ready → b ≤ 63 → c ≤ 4294967295 →
    exec (.loadConst (Operands.bc b c)) s =
      .next { s with
        obuf := Memory.writeWord s.obuf (13 * s.idx) (BitVec.ofNat 104 ((4 <<< 99) ||| (b <<< 93) ||| c))
        idx := s.idx + 1 } ∧
    exec (.writeMem (Operands.bc b c)) s =
      .next { s with
        obuf := Memory.writeWord s.obuf (13 * s.idx) (BitVec.ofNat 104 ((15 <<< 99) ||| (b <<< 93) ||| c))
        idx := s.idx + 1 } ∧
    exec (.not (Operands.bc b c)) s =
      .next { s with
        obuf := Memory.writeWord s.obuf (13 * s.idx) (BitVec.ofNat 104 ((2 <<< 99) ||| (b <<< 93) ||| c))
        idx := s.idx + 1 }

/-- R122, R144 (DERIVED: each in part): ReadMem in range completes in every state that accepts. -/
def Obligations.ReadMemCompletes : Prop :=
  ∀ (s : State) (b c d : Nat), s.ready → b ≤ 63 → c ≤ 4294967295 → d ≤ 4294967295 →
    exec (.readMem (Operands.bcd b c d)) s =
      .next { s with
        obuf := Memory.writeWord s.obuf (13 * s.idx)
          (BitVec.ofNat 104 ((6 <<< 99) ||| (b <<< 93) ||| (c <<< 61) ||| d))
        idx := s.idx + 1 }

/-- R144: an accepted Push of any kind appends the 13 bytes of its word at 13 * idx and advances idx by 1; phase and
err are unchanged; after it, in a state between operations, |obuf| = 13 * idx again and obuf is the old one with the
word's bytes appended. -/
def Obligations.AcceptedPushAppendsTheWord : Prop :=
  ∀ (i : Instr) (s : State) (h : check i = .ok), s.ready →
    ∃ t, exec i s = .next t ∧ t.idx = s.idx + 1 ∧ t.phase = s.phase ∧ t.err = s.err ∧
      (∀ k < 13, Memory.read t.obuf (13 * s.idx + k) = (serialize (pack i h))[k]?) ∧
      (∀ a, a < 13 * s.idx ∨ 13 * s.idx + 13 ≤ a → Memory.read t.obuf a = Memory.read s.obuf a) ∧
      (s.Inv → Memory.bytes t.obuf = Memory.bytes s.obuf ++ serialize (pack i h) ∧
        (Memory.bytes t.obuf).length = 13 * t.idx)

/-- R145, R160, R161, R168 (DERIVED: D9, D10, D11): a failing Push of any kind enters phase FAILED with the whole
report, empties obuf, leaves idx, and changes nothing else. -/
def Obligations.FailingPushLatchesTheReport : Prop :=
  ∀ (i : Instr) (s : State), s.params.presentable i = true → s.phase = .collect → s.params.hasRoom s.idx = true →
    (∀ f v m, check i = .err (.fieldOverflow f v m) →
      exec i s = .next { s with
        phase := .failed
        obuf := []
        err := some { cause := .fieldOverflow, index := s.idx, kind := i.kind, present := i.present,
                      field := f, value := v, max := m } } ∧
      i.value f = some v ∧ m = 2 ^ f.width - 1 ∧ m < v) ∧
    (i.present ≠ i.kind.shape →
      exec i s = .next { s with
        phase := .failed
        obuf := []
        err := some { cause := .malformedRecord, index := s.idx, kind := i.kind, present := i.present,
                      field := .a, value := 0, max := 0 } })

/-- R149 (DERIVED: D10): in FAILED a record of any kind is discarded; no state changes. -/
def Obligations.PushInFailedIsDiscarded : Prop :=
  ∀ (i : Instr) (s : State), s.params.presentable i = true → s.phase = .failed → exec i s = .next s

/-- R146, U4 (DERIVED: D12): at idx = MAXREC in COLLECT a Push has no step, for which this model has the fault
pushAtCapacity (the model's choice, log entry 7), while Finish and Reset remain possible. -/
def Obligations.PushAtCapacityHasNoStep : Prop :=
  ∀ (s : State) (n : Nat), s.params.maxRec = some n → s.idx = n → s.phase = .collect →
    (∀ i : Instr, s.params.presentable i = true → exec i s = .fault .pushAtCapacity) ∧
    (∀ (i : Instr) (rest : List HostOp), s.params.presentable i = true → s.inbox = .push i :: rest →
      step s = .fault .pushAtCapacity) ∧
    (∀ rest, ∃ t, step (s.withInbox (.finish :: rest)) = .next t) ∧
    (∀ rest, ∃ t, step (s.withInbox (.reset :: rest)) = .next t)

/-- R22, U8 (DERIVED): a value of 2^VW or more cannot be presented; that a record which holds one ends in the refusal
valueNotPresentable is the model's choice (log entry 8). -/
def Obligations.UnpresentableRecordIsRefused : Prop :=
  ∀ (i : Instr) (s : State) (n v : Nat), s.params.vw = some n → 2 ^ n ≤ v →
    (i.ops.b = some v ∨ i.ops.c = some v ∨ i.ops.d = some v) →
    exec i s = .refused .valueNotPresentable ∧ encode1 i s = .refused .valueNotPresentable

/-- The frame of a record of any kind, from R143, R144, R145, R149, R168 (DERIVED: D10, D11): parameters, inbox and
outbox never change; an accepted record changes no byte outside the 13 at its store address; a failing record
leaves no byte and keeps idx; in FAILED nothing changes. -/
def Obligations.FrameOfAnyRecord : Prop :=
  ∀ (i : Instr) (s t : State), exec i s = .next t →
    t.params = s.params ∧ t.inbox = s.inbox ∧ t.outbox = s.outbox ∧
    (s.phase = .collect → check i = .ok →
      t.phase = .collect ∧ t.err = s.err ∧ t.idx = s.idx + 1 ∧
      ∀ a, a < storeAddress s ∨ storeAddress s + 13 ≤ a → Memory.read t.obuf a = Memory.read s.obuf a) ∧
    (s.phase = .collect → check i ≠ .ok →
      t.phase = .failed ∧ t.idx = s.idx ∧ ∀ a, Memory.read t.obuf a = none) ∧
    (s.phase = .failed → t = s)

/-- R195, R153 (DERIVED: the word of a record depends on that record alone): two states that accept the same record
append the same bytes. -/
def Obligations.EncodingDependsOnTheRecordAlone : Prop :=
  ∀ (i : Instr) (s t s' t' : State), s.phase = .collect → t.phase = .collect → check i = .ok →
    exec i s = .next s' → exec i t = .next t' →
    ∀ k < 13, Memory.read s'.obuf (storeAddress s + k) = Memory.read t'.obuf (storeAddress t + k)

/-! Finish, Reset, Encode1 and the step. -/

/-- R147, R155 (DERIVED: D11, D13, D24): Finish in COLLECT returns Ok of the 13 * idx bytes of obuf in ascending
offset order and re-establishes the initial state. -/
def Obligations.FinishInCollectDeliversTheStream : Prop :=
  ∀ (s : State) (rest : List HostOp), s.inbox = .finish :: rest → s.phase = .collect → s.Inv →
    step s = .next { State.reset with
      params := s.params, inbox := rest, outbox := s.outbox ++ [.delivered (Memory.bytes s.obuf)] } ∧
    (Memory.bytes s.obuf).length = 13 * s.idx ∧
    (∀ k < 13 * s.idx, (Memory.bytes s.obuf)[k]? = Memory.read s.obuf k) ∧
    (s.idx = 0 → Memory.bytes s.obuf = [])

/-- R148 (DERIVED: D13): Finish in FAILED returns the report and no byte, and re-establishes the initial state. -/
def Obligations.FinishInFailedReturnsTheReport : Prop :=
  ∀ (s : State) (rest : List HostOp) (r : ErrorReport), s.inbox = .finish :: rest → s.phase = .failed →
    s.err = some r →
    step s = .next { State.reset with
      params := s.params, inbox := rest, outbox := s.outbox ++ [.rejected (some r)] }

/-- R190 (DERIVED: D14): Reset, at any time, establishes the initial state and returns nothing. -/
def Obligations.ResetEstablishesTheInitialState : Prop :=
  ∀ (s : State) (rest : List HostOp), s.inbox = .reset :: rest →
    step s = .next { State.reset with params := s.params, inbox := rest, outbox := s.outbox }

/-- R142, R178 (DERIVED: D15): Encode1 completes in either phase, returns the word's bytes or the error without an
index, and latches nothing. -/
def Obligations.Encode1ReturnsTheVerdictAndLatchesNothing : Prop :=
  ∀ (s : State) (i : Instr) (rest : List HostOp), s.inbox = .encode1 i :: rest →
    s.params.presentable i = true →
    (∀ h : check i = .ok,
      step s = .next { s with inbox := rest, outbox := s.outbox ++ [.encoded (serialize (pack i h))] }) ∧
    (∀ e, check i = .err e →
      step s = .next { s with inbox := rest, outbox := s.outbox ++ [.encodeFailed e] })

/-- R30 and log entries 2, 4 (DERIVED): the step runs the record the host presents, and the record a fetched word
decodes to, as exec does. -/
def Obligations.StepRunsThePresentedRecord : Prop :=
  (∀ (s : State) (i : Instr) (rest : List HostOp), s.inbox = .push i :: rest →
    step s = exec i (s.withInbox rest)) ∧
  (∀ (s : State) (nbits w : Nat) (i : Instr), decodeTableWord nbits w = some i →
    step (s.withFetchWord nbits w) = exec i s)

/-- R30, R191 (DERIVED: the block takes no step on its own): with no operation pending the step is refused. -/
def Obligations.IdleBlockTakesNoStep : Prop :=
  ∀ s : State, s.inbox = [] → step s = .refused .noOperationPending

/-- R30, R143, R200 (DERIVED): every pending operation completes, but for a Push at capacity and a record that cannot
be presented. -/
def Obligations.EveryOtherOperationCompletes : Prop :=
  ∀ (s : State) (op : HostOp) (rest : List HostOp), s.inbox = op :: rest →
    (∀ i, op = .push i ∨ op = .encode1 i → s.params.presentable i = true) →
    (∀ i, op = .push i → s.phase = .failed ∨ s.params.hasRoom s.idx = true) →
    ∃ t, step s = .next t ∧ t.inbox = rest

/-! Whole-machine rules. -/

/-- R33 (DERIVED: D13, D14): the initial state, and every status register reads 0. -/
def Obligations.InitialStateAtReset : Prop :=
  State.reset.phase = .collect ∧ State.reset.idx = 0 ∧ State.reset.err = none ∧ State.reset.obuf = [] ∧
  statusRegs State.reset =
    { st := 0, idx := 0, errCause := 0, errIndex := 0, errKind := 0, errPresent := 0, errField := 0, errValue := 0, errMax := 0 }

/-- R28, R33 (DERIVED): the invariant holds at reset. -/
def Obligations.InvariantHoldsAtReset : Prop := State.reset.Inv

/-- R28 (DERIVED): the invariant that holds between host operations is kept by every step. -/
def Obligations.EveryStepKeepsTheInvariant : Prop :=
  ∀ s t : State, s.Inv → step s = .next t → t.Inv

/-- R27, R55, R147, R148 (DERIVED: D11): no partial output. A step that delivers a stream performed a Finish in COLLECT,
and the stream is what `assemble` gives for as many records as were accepted; no step from FAILED delivers one; so every
stream ever delivered is the whole stream of a program all of whose records passed the check. -/
def Obligations.OnlyWholeProgramsAreDelivered : Prop :=
  ∀ s t : State, s.Inv → step s = .next t →
    (s.outboxSound → t.outboxSound) ∧
    ∃ new, t.outbox = s.outbox ++ new ∧
      (∀ bytes, .delivered bytes ∈ new →
        new = [.delivered bytes] ∧ s.phase = .collect ∧ (∃ rest, s.inbox = .finish :: rest) ∧
        bytes = Memory.bytes s.obuf ∧ ∃ is : List Instr, is.length = s.idx ∧ assemble is = .ok bytes) ∧
      (s.phase = .failed → ∀ bytes, .delivered bytes ∉ new)

/-- R171 (DERIVED: D13): the only ways out of FAILED are Finish and Reset, and both lead to the initial state. -/
def Obligations.OnlyFinishAndResetLeaveFailed : Prop :=
  ∀ s t : State, s.phase = .failed → t.phase = .collect → step s = .next t →
    ∃ rest, (s.inbox = .finish :: rest ∨ s.inbox = .reset :: rest) ∧
      t.idx = 0 ∧ t.err = none ∧ t.obuf = [] ∧ t.params = s.params ∧ t.inbox = rest

/-- R170, R172 (DERIVED: D10, D25): while the block stays in FAILED the first report is kept. -/
def Obligations.FirstReportIsKept : Prop :=
  ∀ s t : State, s.phase = .failed → t.phase = .failed → step s = .next t →
    t.err = s.err ∧ t.idx = s.idx ∧ t.obuf = s.obuf

/-- R145, R168, R164 (DERIVED: D10): FAILED is entered only by a Push of a record that fails the check. -/
def Obligations.OnlyAFailingPushEntersFailed : Prop :=
  ∀ s t : State, s.phase = .collect → t.phase = .failed → step s = .next t →
    ∃ i rest, s.inbox = .push i :: rest ∧ check i ≠ .ok

/-- R34 (DERIVED, log entry 1): no operation changes the parameters, and the host's results are only ever added to. -/
def Obligations.ParametersNeverChange : Prop :=
  ∀ s t : State, step s = .next t → t.params = s.params ∧ ∃ new, t.outbox = s.outbox ++ new

/-- R27, R51 (DERIVED: D12): no step takes the buffer past its capacity: after it every stream offset in use is below
13 * MAXREC, and idx is at most MAXREC. -/
def Obligations.BufferStaysWithinCapacity : Prop :=
  ∀ (s t : State) (n : Nat), s.Inv → s.params.maxRec = some n → step s = .next t →
    (∀ c ∈ t.obuf, c.1 < 13 * n) ∧ t.idx ≤ n

/-- R146, R163 (DERIVED: D12): with MAXREC unbounded no run of any length ends in a fault. -/
def Obligations.UnboundedBlockNeverFaults : Prop :=
  ∀ s : State, s.params.maxRec = none → s.safe

/-- R24, R25, R26, R32, R162 (DERIVED: D8, D17): the status registers encode the state, with the numeric codes of R162,
within their widths. ST and IDX hold phase and idx in every state; the rest rests on the invariant. -/
def Obligations.StatusRegistersEncodeTheState : Prop :=
  ∀ s : State,
    ((statusRegs s).st = 1 ↔ s.phase = .failed) ∧ (statusRegs s).idx = s.idx ∧
    (s.err = none → statusRegs s =
      { st := (statusRegs s).st, idx := s.idx, errCause := 0, errIndex := 0, errKind := 0, errPresent := 0,
        errField := 0, errValue := 0, errMax := 0 }) ∧
    (s.Inv →
      ((statusRegs s).errCause = 0 ↔ s.err = none) ∧ (statusRegs s).errCause ≠ 3 ∧
      (∀ r, s.err = some r →
        (statusRegs s).errIndex = r.index ∧
        ((statusRegs s).errCause = 1 ↔ r.cause = .fieldOverflow) ∧
        ((statusRegs s).errCause = 2 ↔ r.cause = .malformedRecord) ∧
        ((statusRegs s).errKind = 0 ↔ r.kind = .loadConst) ∧ ((statusRegs s).errKind = 1 ↔ r.kind = .readMem) ∧
        ((statusRegs s).errKind = 2 ↔ r.kind = .writeMem) ∧ ((statusRegs s).errKind = 3 ↔ r.kind = .not) ∧
        (statusRegs s).errPresent.getLsbD 0 = r.present.b ∧ (statusRegs s).errPresent.getLsbD 1 = r.present.c ∧
        (statusRegs s).errPresent.getLsbD 2 = r.present.d ∧
        ((statusRegs s).errField = 0 ↔ r.field = .a) ∧ ((statusRegs s).errField = 1 ↔ r.field = .b) ∧
        ((statusRegs s).errField = 2 ↔ r.field = .c) ∧ ((statusRegs s).errField = 3 ↔ r.field = .d) ∧
        (statusRegs s).errValue = r.value ∧ (statusRegs s).errMax.toNat = r.max ∧
        (r.cause = .malformedRecord →
          (statusRegs s).errField = 0 ∧ (statusRegs s).errValue = 0 ∧ (statusRegs s).errMax = 0)) ∧
      (∀ w, indexWidth s.params = some w → (statusRegs s).idx < 2 ^ w ∧ (statusRegs s).errIndex < 2 ^ w) ∧
      s.params.carries (statusRegs s).errValue = true)

/-! Whole programs. `assemble` takes no MAXREC (the model's choice, log entry 19): these statements hold of programs of any
length, so of the at most MAXREC records of R150 whatever MAXREC is. -/

/-- R152: the output length is 13 times the number of records whenever it succeeds, and there is no output when some
record fails. -/
def Obligations.AssembledLengthIsThirteenPerRecord : Prop :=
  (∀ (is : List Instr) (bytes : List Byte), assemble is = .ok bytes → bytes.length = 13 * is.length) ∧
  (∀ is : List Instr, (∃ i ∈ is, check i ≠ .ok) → ∃ r, assemble is = .err r)

/-- R154: two programs that assemble assemble together to the concatenation, and a program of two records gives 26
bytes. -/
def Obligations.AssembledStreamsConcatenate : Prop :=
  (∀ (is js : List Instr) (x y : List Byte), assemble is = .ok x → assemble js = .ok y →
    assemble (is ++ js) = .ok (x ++ y)) ∧
  (∀ (i j : Instr) (hi : check i = .ok) (hj : check j = .ok),
    assemble [i, j] = .ok (serialize (pack i hi) ++ serialize (pack j hj)) ∧
    (serialize (pack i hi) ++ serialize (pack j hj)).length = 26)

/-- R153: permuting the records permutes the 13-byte blocks identically; block k is the word of record k alone; and a
permuted sequence that contains an invalid record fails, at the first position where one stands. -/
def Obligations.AssemblyPreservesOrder : Prop :=
  (∀ (n : Nat) (rs : Fin n → Instr) (σ : Equiv.Perm (Fin n)) (hok : ∀ k, check (rs k) = .ok),
    ∃ x y, assemble (List.ofFn rs) = .ok x ∧ assemble (List.ofFn (fun k => rs (σ k))) = .ok y ∧
      ∀ k : Fin n,
        (x.drop (13 * k)).take 13 = serialize (pack (rs k) (hok k)) ∧
        (y.drop (13 * k)).take 13 = (x.drop (13 * (σ k : Nat))).take 13) ∧
  (∀ (n : Nat) (rs : Fin n → Instr) (σ : Equiv.Perm (Fin n)), (∃ k, check (rs k) ≠ .ok) →
    ∃ r, assemble (List.ofFn (fun k => rs (σ k))) = .err r ∧
      ∃ k : Fin n, r.index = k ∧ check (rs (σ k)) ≠ .ok ∧ ∀ j < k, check (rs (σ j)) = .ok)

/-- R167: the error reported is that of the lowest-index failing record, and records after it play no part. -/
def Obligations.LowestFailingRecordIsReported : Prop :=
  ∀ (before : List Instr) (i : Instr) (e : CheckError) (after : List Instr),
    (∀ j ∈ before, check j = .ok) → check i = .err e →
    assemble (before ++ i :: after) = .err (reportOf before.length i e)

/-- R150 (DERIVED: the spec's own equivalence): Push of each record in order and then Finish, from the initial state of
a block with capacity for them (|rs| ≤ MAXREC), returns exactly the result of `assemble`, and leaves the initial state. -/
def Obligations.PushesThenFinishComputeAssemble : Prop :=
  ∀ (s : State) (is : List Instr) (rest : List HostOp),
    s.phase = .collect → s.idx = 0 → s.err = none → s.obuf = [] →
    (∀ n, s.params.maxRec = some n → is.length ≤ n) → (∀ i ∈ is, s.params.presentable i = true) →
    Sys2Proof.core.run (is.length + 1) (s.withInbox (is.map .push ++ .finish :: rest)) =
      .next { State.reset with
        params := s.params
        inbox := rest
        outbox := s.outbox ++ [(assemble is).response] }

/-! The signal-level view of R31. -/

/-- R31, R142, U6 (DERIVED: D15, D16): the combinational outputs. chk_ok is 1 exactly when the record passes, pk_word
is then its word and the other chk outputs are 0; otherwise they carry the error. -/
def Obligations.CombinationalOutputsShowTheVerdict : Prop :=
  ∀ (inp : PortIn) (p : PortState),
    ((portOut inp p).chkOk = true ↔ check inp.record = .ok) ∧
    (∀ h : check inp.record = .ok, (portOut inp p).pkWord = pack inp.record h ∧
      (portOut inp p).chkCause = 0 ∧ (portOut inp p).chkField = 0 ∧ (portOut inp p).chkValue = 0 ∧
      (portOut inp p).chkMax = 0) ∧
    (∀ f v m, check inp.record = .err (.fieldOverflow f v m) →
      (portOut inp p).chkCause = 1 ∧ (portOut inp p).chkField = fieldCode f ∧ (portOut inp p).chkValue = v ∧
      (portOut inp p).chkMax.toNat = m) ∧
    (∀ k q, check inp.record = .err (.malformedRecord k q) →
      (portOut inp p).chkCause = 2 ∧ (portOut inp p).chkField = 0 ∧ (portOut inp p).chkValue = 0 ∧
      (portOut inp p).chkMax = 0)

/-- R31 (DERIVED: D16): a Push transfer at the ports has the effect of the Push, and a Push at capacity is never
transferred. -/
def Obligations.PortPushHasTheEffectOfPush : Prop :=
  ∀ (inp : PortIn) (p : PortState), inp.carried p.core.params = true → inp.rst = false → inp.cmdValid = true →
    inp.cmdFinish = false →
    (cmdReady inp p = true →
      ∃ s, exec inp.record p.core = .next s ∧
        portCycle inp p = .next { core := s, busy := none, draw := p.draw + 1 }) ∧
    (cmdReady inp p = false → p.busy = none →
      portCycle inp p = .next { p with draw := p.draw + 1 }) ∧
    (p.core.phase = .collect → p.core.params.hasRoom p.core.idx = false → cmdReady inp p = false)

/-- R31 (DERIVED: D16): a Finish at the ports, with both sides ready in every cycle, transfers in order exactly the
bytes that Finish delivers, and then leaves the state of Finish. -/
def Obligations.PortFinishSendsTheStream : Prop :=
  ∀ (p : PortState) (inp fin : PortIn), p.busy = none →
    fin.carried p.core.params = true → inp.carried p.core.params = true → fin.rst = false → inp.rst = false →
    fin.cmdValid = true → fin.cmdFinish = true → fin.willing = true →
    inp.willing = true → inp.outReady = true → inp.doneReady = true →
    portRun (fin :: List.replicate ((finishBytes p.core).length + 1) inp) p [] =
      .next ({ core := finish p.core, busy := none, draw := p.draw + (finishBytes p.core).length + 2 },
        finishBytes p.core) ∧
    (p.core.phase = .collect → finishResult p.core = .delivered (finishBytes p.core)) ∧
    (p.core.phase = .failed → finishResult p.core = .rejected p.core.err ∧ finishBytes p.core = [])

/-- R190, R31 (DERIVED: D14, D16): rst takes precedence over a command, which is not performed, and ends a Finish in
progress. The rest is the model's (log entry 17): deduced, that a byte offered and taken in the cycle of rst counts as
sent and that a done transfer in that cycle returns its result; chosen, that the bytes not yet sent are dropped. -/
def Obligations.PortResetTakesPrecedence : Prop :=
  ∀ (inp : PortIn) (p : PortState) (sent : List Byte), inp.carried p.core.params = true → inp.rst = true →
    ∃ q, portCycle inp p = .next q ∧ q.busy = none ∧ q.draw = p.draw + 1 ∧
      ((portOut inp p).done = none ∨ inp.doneReady = false → q.core = p.core.toInitial) ∧
      (∀ ok, (portOut inp p).done = some ok → inp.doneReady = true →
        q.core = p.core.toInitial.respond (finishResult p.core)) ∧
      (∀ beat, (portOut inp p).out = some beat → inp.outReady = true →
        portRun [inp] p sent = .next (q, sent ++ [beat.byte])) ∧
      ((portOut inp p).out = none ∨ inp.outReady = false → portRun [inp] p sent = .next (q, sent))
end

