-- ==== Sys2Proof/Laws/PerInstr.lean ====
section
/-! SUPPORT. Statements for all records, one lemma per constructor. -/

namespace Sys2Proof.Laws.OpcodeIdentifiesKind

/-- Field A identifies the kind (R73), and a well-formed record carries its kind's operand fields (R74). -/
def Statement (i : Instr) : Prop :=
  kindOfOpcode i.kind.opcode = some i.kind ∧ (i.wellFormed = true → i.present = i.kind.shape)

theorem legal_isSome {f : Field} {v : Option Nat} (h : f.legal v = true) : v.isSome = true := by
  cases v <;> simp_all [Field.legal]

theorem loadConst (ops : Operands) : Statement (.loadConst ops) := by
  refine ⟨rfl, fun h => ?_⟩
  simp only [Instr.wellFormed, Instr.kind, Kind.format, Instr.ops, Bool.and_eq_true] at h
  simp [Instr.present, Operands.present, Instr.ops, Instr.kind, Kind.shape, legal_isSome h.1.1, legal_isSome h.1.2,
    Option.isNone_iff_eq_none.1 h.2]

theorem readMem (ops : Operands) : Statement (.readMem ops) := by
  refine ⟨rfl, fun h => ?_⟩
  simp only [Instr.wellFormed, Instr.kind, Kind.format, Instr.ops, Bool.and_eq_true] at h
  simp [Instr.present, Operands.present, Instr.ops, Instr.kind, Kind.shape, legal_isSome h.1.1, legal_isSome h.1.2,
    legal_isSome h.2]

theorem writeMem (ops : Operands) : Statement (.writeMem ops) := by
  refine ⟨rfl, fun h => ?_⟩
  simp only [Instr.wellFormed, Instr.kind, Kind.format, Instr.ops, Bool.and_eq_true] at h
  simp [Instr.present, Operands.present, Instr.ops, Instr.kind, Kind.shape, legal_isSome h.1.1, legal_isSome h.1.2,
    Option.isNone_iff_eq_none.1 h.2]

theorem not (ops : Operands) : Statement (.not ops) := by
  refine ⟨rfl, fun h => ?_⟩
  simp only [Instr.wellFormed, Instr.kind, Kind.format, Instr.ops, Bool.and_eq_true] at h
  simp [Instr.present, Operands.present, Instr.ops, Instr.kind, Kind.shape, legal_isSome h.1.1, legal_isSome h.1.2,
    Option.isNone_iff_eq_none.1 h.2]

end Sys2Proof.Laws.OpcodeIdentifiesKind
end

