-- ==== Sys2Proof/Tests/Slice0.lean ====
section
/-! SUPPORT. Tests. Expected values are those of spec/95_test_vectors.md (S, V numbers) or worked by hand from the layout
tables; and for every statement with hypotheses, a concrete state and operands that meet them. -/

namespace Sys2Proof.Tests

open Sys2Proof.Machine

/-- The next state an outcome answers, if it answers one. -/
def next (o : Host.Outcome State Fault Refusal) : Option State :=
  match o with
  | .next s => some s
  | _ => none

/-- A block built with VW = 33 and MAXREC = 1, in its initial state. -/
def small : State := { State.reset with params := { vw := some 33, maxRec := some 1 } }

/-- The bytes of vector S1. -/
def bytesS1 : List Byte := [0x23, 0xE0, 0, 0, 0, 0, 0, 0, 0, 0, 0, 0, 0x8C]

/-- A block of capacity n after the record of S1 was accepted (V80). -/
def afterS1 (n : Option Nat) : State :=
  { State.reset with
    params := { vw := none, maxRec := n }
    idx := 1
    obuf := (List.range 13).zip bytesS1 }

/-- The report of V81. -/
def reportV81 : ErrorReport :=
  { cause := .fieldOverflow, index := 1, kind := .writeMem, present := { b := true, c := true, d := false },
    field := .b, value := 64, max := 63 }

/-- The state after V81. -/
def afterV81 : State := { State.reset with phase := .failed, idx := 1, err := some reportV81 }

/-! Well-formedness: for each check a term it refuses. -/

theorem test_wf_ok : (Instr.readMem (Operands.bcd 63 4294967295 4294967295)).wellFormed = true := by decide
theorem test_wf_missing_b : (Instr.writeMem { b := none, c := some 5, d := none }).wellFormed = false := by decide
theorem test_wf_missing_c : (Instr.not { b := some 64, c := none, d := none }).wellFormed = false := by decide
theorem test_wf_missing_d : (Instr.readMem (Operands.bc 1 2)).wellFormed = false := by decide
theorem test_wf_extra_d : (Instr.loadConst (Operands.bcd 1 2 3)).wellFormed = false := by decide
theorem test_wf_b_range : (Instr.loadConst (Operands.bc 64 0)).wellFormed = false := by decide
theorem test_wf_c_range : (Instr.loadConst (Operands.bc 0 4294967296)).wellFormed = false := by decide
theorem test_wf_d_range : (Instr.readMem (Operands.bcd 0 0 4294967296)).wellFormed = false := by decide

/-! Decoding: words written out bit by bit from R75, R76 and R85. -/

theorem test_decode_loadConst :
    decodeWord (0b00100#5 ++ 0b000111#6 ++ 0#61 ++ 0x01020304#32) =
      .record (.loadConst (Operands.bc 7 0x01020304)) := by decide
theorem test_decode_readMem :
    decodeWord (0b00110#5 ++ 0b101010#6 ++ 0x12345678#32 ++ 0#29 ++ 0x9ABCDEF0#32) =
      .record (.readMem (Operands.bcd 42 0x12345678 0x9ABCDEF0)) := by decide
theorem test_decode_writeMem :
    decodeWord (0b01111#5 ++ 0b000001#6 ++ 0#61 ++ 0x00010000#32) =
      .record (.writeMem (Operands.bc 1 0x00010000)) := by decide
theorem test_decode_not :
    decodeWord (0b00010#5 ++ 0b010101#6 ++ 0#61 ++ 0xDEADBEEF#32) =
      .record (.not (Operands.bc 21 0xDEADBEEF)) := by decide
theorem test_decode_V73 :
    decode [0x33, 0xA0, 0, 0, 0x2B, 0, 0, 0, 0, 0, 0, 1, 9] = .record (.readMem (Operands.bcd 29 344 265)) [] := by decide
theorem test_decode_V74 : decode [0x20, 0, 0, 0, 0, 0, 0, 0, 1, 0, 0, 0, 0] = .rejected (.nonZeroPadding .loadConst) := by decide
theorem test_decode_V75 : decode [8, 0, 0, 0, 0, 0, 0, 0, 0, 0, 0, 0, 0] = .rejected (.unassignedOpcode 1) := by decide
theorem test_decode_gap : decodeWord 0x30000000000000000100000000 = .rejected (.nonZeroPadding .readMem) := by decide
theorem test_decode_short : decode [0x20, 0] = .rejected .tooShort := by decide
theorem test_table_bits_above : decodeTableWord 8 0x100 = none := by decide
/-- No two rows of the opcode table can hold of one word. -/
theorem test_table_rows_disjoint :
    opcodeTable.Pairwise (fun r q => (r.pattern ^^^ q.pattern) &&& (r.mask &&& q.mask) ≠ 0) := by decide
theorem test_encode_V46 :
    encode (.readMem (Operands.bcd 42 0x12345678 0x9ABCDEF0)) = some 0x3542468ACF000000009ABCDEF0 := by decide

/-! The check and the packer. -/

theorem test_check_V7 :
    check (.readMem (Operands.bcd 64 4294967296 4294967296)) = .err (.fieldOverflow .b 64 63) := by decide
theorem test_check_V8 :
    check (.readMem (Operands.bcd 0 4294967296 4294967296)) = .err (.fieldOverflow .c 4294967296 4294967295) := by decide
theorem test_check_V11 : check (.not { b := some 64, c := none, d := none }) =
    .err (.malformedRecord .not { b := true, c := false, d := false }) := by decide
theorem test_check_V15 :
    check (.not (Operands.bc 0 18446744073709551615)) = .err (.fieldOverflow .c 18446744073709551615 4294967295) := by decide
theorem test_pack_V24 : packRecord (.loadConst (Operands.bc 7 0x01020304)) = .word 0x20E00000000000000001020304 := by decide
theorem test_pack_V37 : packRecord (.readMem (Operands.bcd 0 0x07FFFFFF 0)) = .word 0x3000FFFFFFE000000000000000 := by decide
theorem test_pack_V54 : packRecord (.writeMem (Operands.bc 1 0x10000)) = .word 0x78200000000000000000010000 := by decide
theorem test_pack_V62 : packRecord (.not (Operands.bc 21 0xDEADBEEF)) = .word 0x12A000000000000000DEADBEEF := by decide
theorem test_mux_V46 : packMux .readMem 42 0x12345678 0x9ABCDEF0 = 0x3542468ACF000000009ABCDEF0 := by decide
theorem test_assemble_P1 :
    assemble [.loadConst (Operands.bc 31 140), .readMem (Operands.bcd 29 344 265)] =
      .ok (bytesS1 ++ [0x33, 0xA0, 0, 0, 0x2B, 0, 0, 0, 0, 0, 0, 1, 9]) := by decide

/-! One step of each kind. -/

theorem test_push_V80 : next (exec (.loadConst (Operands.bc 31 140)) (afterS1 none).toInitial) = some (afterS1 none) := by
  decide
theorem test_push_V81 : next (exec (.writeMem (Operands.bc 64 403)) (afterS1 none)) = some afterV81 := by decide
theorem test_push_V82 : next (exec (.not (Operands.bc 45 240)) afterV81) = some afterV81 := by decide
theorem test_push_V83 : next (exec (.readMem (Operands.bc 1 2)) afterV81) = some afterV81 := by decide
theorem test_push_readMem_second_word :
    (next (exec (.readMem (Operands.bcd 29 344 265)) (afterS1 none))).map (fun s => (s.idx, Memory.read s.obuf 17)) =
      some (2, some 0x2B) := by decide
theorem test_push_not_first_byte :
    (next (exec (.not (Operands.bc 45 240)) State.reset)).map (fun s => Memory.read s.obuf 0) = some (some 0x15) := by decide
theorem test_push_writeMem_last_byte :
    (next (exec (.writeMem (Operands.bc 63 403)) State.reset)).map (fun s => Memory.read s.obuf 12) = some (some 0x93) := by
  decide
theorem test_push_V89_registers :
    (next (exec (.readMem (Operands.bc 1 2)) State.reset)).map statusRegs =
      some { st := 1, idx := 0, errCause := 2, errIndex := 0, errKind := 1, errPresent := 3, errField := 0, errValue := 0, errMax := 0 } := by
  decide
theorem test_registers_V81 :
    statusRegs afterV81 =
      { st := 1, idx := 1, errCause := 1, errIndex := 1, errKind := 2, errPresent := 3, errField := 1, errValue := 64, errMax := 63 } := by
  decide

/-! Finish, Reset, Encode1, capacity, and the fetch of a word. -/

theorem test_finish_V84 :
    next (step (afterV81.withInbox [.finish])) = some (State.reset.respond (.rejected (some reportV81))) := by decide
theorem test_finish_V85 :
    next (step ((afterS1 none).withInbox [.finish])) = some (State.reset.respond (.delivered bytesS1)) := by decide
theorem test_finish_V86 :
    next (step (State.reset.withInbox [.finish])) = some (State.reset.respond (.delivered [])) := by decide
theorem test_reset_V88 : next (step (afterV81.withInbox [.reset])) = some State.reset := by decide
theorem test_encode1_V90 :
    next (step ((afterS1 none).withInbox [.encode1 (.writeMem (Operands.bc 64 403))])) =
      some ((afterS1 none).respond (.encodeFailed (.fieldOverflow .b 64 63))) := by decide
theorem test_encode1_V91 :
    next (step (afterV81.withInbox [.encode1 (.not (Operands.bc 45 240))])) =
      some (afterV81.respond (.encoded [0x15, 0xA0, 0, 0, 0, 0, 0, 0, 0, 0, 0, 0, 0xF0])) := by decide
theorem test_push_V92 : next (exec (.not (Operands.bc 45 240)) (afterS1 (some 1))) = none := by decide
theorem test_fetch_S1 :
    next (step (State.reset.withFetchWord 104 0x23E0000000000000000000008C)) = some (afterS1 none) := by decide

/-! The signal-level view. -/

/-- The inputs of one cycle that presents `LoadConst B=31, C=140`. -/
def portPush : PortIn :=
  { rst := false, cmdValid := true, cmdFinish := false, recKind := 0, recPresent := 3, recB := 31, recC := 140,
    recD := 0, outReady := true, doneReady := true, willing := true }

/-- A block with nothing in progress. -/
def portIdle (s : State) : PortState := { core := s, busy := none, draw := 0 }

theorem test_port_record : portPush.record = .loadConst (Operands.bc 31 140) := by decide
theorem test_port_word : (portOut portPush (portIdle State.reset)).pkWord = 0x23E0000000000000000000008C := by decide
/-- A Finish in progress in state s, with these bytes still to be sent. -/
def portSending (s : State) (left : List Byte) : PortState := { core := s, busy := some left, draw := 0 }

/-- The bytes transferred in a run of cycles. -/
def sentBytes (o : Host.Outcome (PortState × List Byte) Fault Refusal) : Option (List Byte) :=
  match o with
  | .next q => some q.2
  | _ => none

/-- The state after one cycle. -/
def afterCycle (o : Host.Outcome PortState Fault Refusal) : Option State :=
  match o with
  | .next q => some q.core
  | _ => none

/-- R31: valid and ready both 1 is a transfer, in the cycle of rst too; no byte follows it (log entry 17). -/
theorem test_port_rst_byte_is_sent :
    sentBytes (portRun [{ portPush with rst := true }, portPush] (portSending (afterS1 none) [0x23, 0xE0]) []) =
      some [0x23] := by decide
theorem test_port_rst_done_returns_the_result :
    (afterCycle (portCycle { portPush with rst := true } (portSending afterV81 []))).map (·.outbox) =
      some [.rejected (some reportV81)] := by decide
theorem test_port_not_ready_at_capacity : cmdReady portPush (portIdle (afterS1 (some 1))) = false := by decide

/-! Witnesses: the hypotheses of each statement can be met together. -/

theorem witness_validator : shapeOk (.writeMem (Operands.bc 64 403)) = true ∧ Field.b ∈ Kind.writeMem.format.fields ∧
    (Instr.writeMem (Operands.bc 64 403)).value .b = some 64 ∧ 2 ^ Field.b.width ≤ 64 := by decide
theorem witness_verdict : (Operands.bc 1 2).present ≠ Kind.readMem.shape ∧ Kind.not.format = .f3 := by decide
theorem witness_no_overflow : overflows .b 63 = false := by decide
theorem witness_in_range : (63 : Nat) ≤ 63 ∧ (4294967295 : Nat) ≤ 4294967295 := by decide
theorem witness_writeMem_high_b : (32 : Nat) ≤ 63 ∧ (32 : Nat) ≤ 32 := by decide
theorem witness_out_of_range : (63 < 64 ∨ 4294967295 < 0) ∧ (63 < 0 ∨ 4294967295 < 4294967296) := by decide
theorem witness_check_f3 : check (.not (Operands.bc 63 4294967295)) = .ok := by decide
theorem witness_check_f4 : check (.readMem (Operands.bcd 63 4294967295 4294967295)) = .ok := by decide
theorem witness_mux : check (.readMem (Operands.bcd 1 2 3)) = .ok ∧ (Operands.bcd 1 2 3).b = some 1 ∧
    (Operands.bcd 1 2 3).c = some 2 ∧ (Operands.bcd 1 2 3).d = some 3 := by decide
theorem witness_check_err : check (.not (Operands.bc 64 0)) = .err (.fieldOverflow .b 64 63) := by decide
theorem witness_gap_bit : ∀ f ∈ Format.f4.fields,
    60 < Format.f4.offset f ∨ Format.f4.offset f + f.width ≤ 60 := by decide
theorem witness_injective : check (.not (Operands.bc 1 2)) = .ok ∧ check (.not (Operands.bc 1 2)) = .ok ∧
    serialize 0x10200000000000000000000002 = serialize 0x10200000000000000000000002 := by decide
theorem witness_ready : small.ready := by unfold State.ready; decide
theorem witness_failing : small.params.presentable (.not (Operands.bc 64 0)) = true ∧ small.phase = .collect ∧
    small.params.hasRoom small.idx = true ∧ check (.not (Operands.bc 64 0)) = .err (.fieldOverflow .b 64 63) := by decide
theorem witness_failing_shape : (Instr.readMem (Operands.bc 1 2)).present ≠ (Instr.readMem (Operands.bc 1 2)).kind.shape := by
  decide
theorem witness_discard : afterV81.params.presentable (.not (Operands.bc 45 240)) = true ∧ afterV81.phase = .failed := by
  decide
theorem witness_capacity : (afterS1 (some 1)).params.maxRec = some 1 ∧ (afterS1 (some 1)).idx = 1 ∧
    (afterS1 (some 1)).phase = .collect ∧ (afterS1 (some 1)).params.presentable (.not (Operands.bc 45 240)) = true ∧
    ((afterS1 (some 1)).withInbox [.push (.not (Operands.bc 45 240))]).inbox = .push (.not (Operands.bc 45 240)) :: [] := by
  decide
theorem witness_unpresentable : small.params.vw = some 33 ∧ 2 ^ 33 ≤ 8589934592 ∧
    (Operands.bcd 0 0 8589934592).d = some 8589934592 := by decide
theorem witness_frame_accept : (next (exec (.not (Operands.bc 1 2)) small)).isSome = true ∧
    small.phase = .collect ∧ check (.not (Operands.bc 1 2)) = .ok := by decide
theorem witness_frame_fail : (next (exec (.not (Operands.bc 64 2)) small)).isSome = true ∧
    small.phase = .collect ∧ check (.not (Operands.bc 64 2)) ≠ .ok := by decide
theorem witness_frame_discard : (next (exec (.not (Operands.bc 64 2)) afterV81)).isSome = true ∧
    afterV81.phase = .failed := by decide
theorem witness_two_states : small.phase = .collect ∧ (afterS1 none).phase = .collect ∧
    (next (exec (.not (Operands.bc 1 2)) small)).isSome = true ∧
    (next (exec (.not (Operands.bc 1 2)) (afterS1 none))).isSome = true := by decide

/-- The block of V80 meets the invariant, at the capacity bound. -/
theorem witness_inv_collect : (afterS1 (some 1)).Inv where
  paramsWf := by decide
  canonical := by decide
  capacity := by intro n hn; cases hn; decide
  collecting := fun _ => ⟨rfl, by decide, [.loadConst (Operands.bc 31 140)], rfl, by decide⟩
  failed := fun h => by simp [afterS1, State.reset] at h

/-- The block after V81 meets the invariant. -/
theorem witness_inv_failed : afterV81.Inv where
  paramsWf := by decide
  canonical := by decide
  capacity := by intro n hn; cases hn
  collecting := fun h => by simp [afterV81] at h
  failed := fun _ => ⟨rfl, rfl, reportV81, rfl, rfl, by decide⟩

theorem withInbox_inv (s : State) (ops : List HostOp) (h : s.Inv) : (s.withInbox ops).Inv :=
  ⟨h.paramsWf, h.canonical, h.capacity, h.collecting, h.failed⟩

theorem witness_finish_collect :
    ((afterS1 (some 1)).withInbox [.finish]).inbox = .finish :: [] ∧
    ((afterS1 (some 1)).withInbox [.finish]).phase = .collect ∧ ((afterS1 (some 1)).withInbox [.finish]).Inv ∧
    (12 : Nat) < 13 * ((afterS1 (some 1)).withInbox [.finish]).idx :=
  ⟨rfl, rfl, withInbox_inv _ _ witness_inv_collect, by decide⟩
/-- An initial state, for the clause `idx = 0` of Finish. -/
theorem witness_finish_empty : (small.withInbox [.finish]).idx = 0 ∧ (small.withInbox [.finish]).Inv :=
  ⟨rfl, by decide, by decide, by intro n hn; simp [small, State.reset],
    fun _ => ⟨rfl, rfl, [], rfl, by decide⟩, fun h => by simp [small, State.reset] at h⟩
/-- An accepting state that meets the invariant, with a record at its largest operands. -/
theorem witness_accept : small.ready ∧ (small.withInbox []).Inv ∧ check (.not (Operands.bc 63 4294967295)) = .ok :=
  ⟨witness_ready, ⟨by decide, by decide, by intro n hn; simp [small, State.reset],
    fun _ => ⟨rfl, rfl, [], rfl, by decide⟩, fun h => by simp [small, State.reset] at h⟩, by decide⟩
theorem witness_finish_failed : (afterV81.withInbox [.finish]).inbox = .finish :: [] ∧
    (afterV81.withInbox [.finish]).phase = .failed ∧ (afterV81.withInbox [.finish]).err = some reportV81 := by decide
theorem witness_reset : (afterV81.withInbox [.reset]).inbox = .reset :: [] := by decide
theorem witness_encode1 : (afterV81.withInbox [.encode1 (.not (Operands.bc 45 240))]).params.presentable
    (.not (Operands.bc 45 240)) = true ∧ check (.not (Operands.bc 45 240)) = .ok ∧
    check (.not (Operands.bc 64 0)) = .err (.fieldOverflow .b 64 63) := by decide
theorem witness_fetch : decodeTableWord 104 0x15A000000000000000000000F0 = some (.not (Operands.bc 45 240)) := by decide
theorem witness_idle : State.reset.inbox = [] := by decide
theorem witness_completes : (small.withInbox [.finish]).inbox = .finish :: [] ∧
    (∀ i, HostOp.finish = .push i ∨ HostOp.finish = .encode1 i → small.params.presentable i = true) ∧
    (∀ i, HostOp.finish = .push i → small.phase = .failed ∨ small.params.hasRoom small.idx = true) := by simp [State.withInbox]
theorem witness_step_keeps : ((afterS1 (some 1)).withInbox [.finish]).Inv ∧
    (next (step ((afterS1 (some 1)).withInbox [.finish]))).isSome = true :=
  ⟨withInbox_inv _ _ witness_inv_collect, by decide⟩
theorem witness_step_keeps_failed : (afterV81.withInbox [.push (.not (Operands.bc 1 2))]).Inv ∧
    (next (step (afterV81.withInbox [.push (.not (Operands.bc 1 2))]))).isSome = true :=
  ⟨withInbox_inv _ _ witness_inv_failed, by decide⟩
theorem witness_outbox : ((afterS1 (some 1)).withInbox [.finish]).outboxSound := by
  intro bytes h; simp [State.withInbox, afterS1, State.reset] at h
/-- The step of `witness_step_keeps` delivers a stream. -/
theorem witness_delivers : ((afterS1 (some 1)).withInbox [.finish]).outbox = [] ∧
    (next (step ((afterS1 (some 1)).withInbox [.finish]))).map (·.outbox) = some [.delivered bytesS1] := by decide
/-- A step from FAILED that returns a result. -/
theorem witness_rejects : (afterV81.withInbox [.finish]).Inv ∧ (afterV81.withInbox [.finish]).phase = .failed ∧
    (next (step (afterV81.withInbox [.finish]))).isSome = true :=
  ⟨withInbox_inv _ _ witness_inv_failed, rfl, by decide⟩
theorem witness_leave_failed : (afterV81.withInbox [.finish]).phase = .failed ∧ (next (step (afterV81.withInbox [.finish]))).map (·.phase) = some .collect := by decide
theorem witness_stay_failed : (afterV81.withInbox [.push (.not (Operands.bc 1 2))]).phase = .failed ∧
    (next (step (afterV81.withInbox [.push (.not (Operands.bc 1 2))]))).map (·.phase) = some .failed := by decide
theorem witness_enter_failed : (State.reset.withInbox [.push (.not (Operands.bc 64 2))]).phase = .collect ∧
    (next (step (State.reset.withInbox [.push (.not (Operands.bc 64 2))]))).map (·.phase) = some .failed := by decide
/-- A step that fills the last byte of a block of capacity 1. -/
theorem witness_buffer : (small.withInbox [.push (.loadConst (Operands.bc 31 140))]).Inv ∧
    (small.withInbox [.push (.loadConst (Operands.bc 31 140))]).params.maxRec = some 1 ∧
    (next (step (small.withInbox [.push (.loadConst (Operands.bc 31 140))]))).map
      (fun t => (t.idx, Memory.read t.obuf 12)) = some (1, some 0x8C) :=
  ⟨withInbox_inv _ _ witness_accept.2.1, rfl, by decide⟩
theorem witness_unbounded : State.reset.params.maxRec = none := by decide
/-- States that meet the invariant: one with a FieldOverflow report, one with no error. -/
theorem witness_status : afterV81.Inv ∧ afterV81.err = some reportV81 ∧ reportV81.cause = .fieldOverflow ∧
    (afterS1 (some 1)).Inv ∧ (afterS1 (some 1)).err = none := ⟨witness_inv_failed, rfl, rfl, witness_inv_collect, rfl⟩
/-- The state after V89. -/
def afterV89 : State := State.reset.raise (.readMem (Operands.bc 1 2))
  (.malformedRecord .readMem { b := true, c := true, d := false })
theorem witness_status_malformed : afterV89.Inv ∧ afterV89.err.map (·.cause) = some .malformedRecord :=
  ⟨⟨by decide, by decide, (by intro n hn; cases hn), fun h => by simp [afterV89] at h,
    fun _ => ⟨rfl, rfl, _, rfl, rfl, by decide⟩⟩, by decide⟩
theorem witness_index_width : indexWidth (afterS1 (some 1)).params = some 1 := by decide
theorem witness_assemble : assemble [.not (Operands.bc 45 240)] =
    .ok [0x15, 0xA0, 0, 0, 0, 0, 0, 0, 0, 0, 0, 0, 0xF0] := by decide
theorem witness_order : (∀ k : Fin 2, check ((fun _ => .not (Operands.bc 1 2) : Fin 2 → Instr) k) = .ok) ∧
    ∃ k : Fin 2, check ((fun j => if j = 1 then .not (Operands.bc 64 2) else .not (Operands.bc 1 2) : Fin 2 → Instr) k) ≠ .ok := by
  decide
theorem witness_lowest : (∀ j ∈ [Instr.not (Operands.bc 45 240)], check j = .ok) ∧
    check (.readMem (Operands.bc 29 344)) = .err (.malformedRecord .readMem { b := true, c := true, d := false }) := by decide
theorem witness_host_sequence : small.phase = .collect ∧ small.idx = 0 ∧ small.err = none ∧ small.obuf = [] ∧
    (∀ n, small.params.maxRec = some n → [Instr.not (Operands.bc 45 240)].length ≤ n) ∧
    (∀ i ∈ [Instr.not (Operands.bc 45 240)], small.params.presentable i = true) := by
  refine ⟨rfl, rfl, rfl, rfl, ?_, by decide⟩
  intro n hn; cases hn; decide
theorem witness_port_push : portPush.carried small.params = true ∧ portPush.rst = false ∧ portPush.cmdValid = true ∧
    portPush.cmdFinish = false ∧ cmdReady portPush (portIdle small) = true := by decide
theorem witness_port_wait : portPush.carried (afterS1 (some 1)).params = true ∧
    cmdReady portPush (portIdle (afterS1 (some 1))) = false ∧ (portIdle (afterS1 (some 1))).busy = none := by decide
theorem witness_port_finish :
    (portIdle (afterS1 (some 1))).busy = none ∧ (afterS1 (some 1)).phase = .collect ∧ afterV81.phase = .failed ∧
    ({ portPush with cmdFinish := true } : PortIn).carried (afterS1 (some 1)).params = true ∧
    portPush.carried (afterS1 (some 1)).params = true ∧ ({ portPush with cmdFinish := true } : PortIn).rst = false ∧
    portPush.rst = false ∧ ({ portPush with cmdFinish := true } : PortIn).cmdValid = true ∧
    ({ portPush with cmdFinish := true } : PortIn).cmdFinish = true ∧
    ({ portPush with cmdFinish := true } : PortIn).willing = true ∧ portPush.willing = true ∧
    portPush.outReady = true ∧ portPush.doneReady = true := by decide
theorem witness_port_verdicts : check portPush.record = .ok ∧
    check ({ portPush with recB := 64 } : PortIn).record = .err (.fieldOverflow .b 64 63) ∧
    check ({ portPush with recPresent := 7 } : PortIn).record =
      .err (.malformedRecord .loadConst { b := true, c := true, d := true }) := by decide
theorem witness_port_reset : ({ portPush with rst := true } : PortIn).carried small.params = true ∧
    ({ portPush with rst := true } : PortIn).rst = true ∧
    (portOut { portPush with rst := true } (portIdle small)).done = none ∧
    (portOut { portPush with rst := true } (portIdle small)).out = none := by decide
theorem witness_port_reset_byte :
    (portOut { portPush with rst := true } (portSending small [0x23])).out = some { byte := 0x23, last := true } ∧
    ({ portPush with rst := true } : PortIn).outReady = true ∧
    ({ portPush with rst := true } : PortIn).carried small.params = true := by decide
theorem witness_port_reset_done :
    (portOut { portPush with rst := true } (portSending small [])).done = some true ∧
    ({ portPush with rst := true } : PortIn).doneReady = true ∧
    (portOut { portPush with rst := true, doneReady := false } (portSending small [])).done = some true := by decide

end Sys2Proof.Tests
end

section
/-! SUPPORT. Facts about the model's operations that the proofs below share: when a record can be presented, what a Push
completes with and leaves unchanged, how `assemble` goes on after a first part of the program, and what a step adds to
the outbox. -/

namespace Sys2Proof.Machine

/-! Presenting a record (R22). -/

theorem carries_iff_of_vw (p : Params) (n v : Nat) (h : p.vw = some n) : p.carries v = true ↔ v < 2 ^ n := by
  simp [Params.carries, h]

theorem carries_zero (p : Params) : p.carries 0 = true := by
  unfold Params.carries
  split <;> simp

/-- A record can be presented exactly when each value it holds fits the value inputs. -/
theorem presentable_iff (p : Params) (i : Instr) :
    p.presentable i = true ↔
      ∀ v, (i.ops.b = some v ∨ i.ops.c = some v ∨ i.ops.d = some v) → p.carries v = true := by
  simp only [Params.presentable, Bool.and_eq_true, Option.all_eq_true, or_imp, forall_and, and_assoc]

/-- An operand field's value in a record that can be presented fits the value inputs. -/
theorem carries_of_presentable {p : Params} {i : Instr} {f : Field} {v : Nat} (h : p.presentable i = true)
    (hf : f ≠ .a) (hv : i.value f = some v) : p.carries v = true := by
  refine (presentable_iff p i).1 h v ?_
  cases f with
  | a => exact absurd rfl hf
  | b => exact .inl hv
  | c => exact .inr (.inl hv)
  | d => exact .inr (.inr hv)

/-- A value of 2^VW or more makes its record one that cannot be presented. -/
theorem presentable_eq_false {p : Params} {i : Instr} {n v : Nat} (hn : p.vw = some n) (hv : 2 ^ n ≤ v)
    (hi : i.ops.b = some v ∨ i.ops.c = some v ∨ i.ops.d = some v) : p.presentable i = false := by
  rw [Bool.eq_false_iff]
  intro hp
  have hlt := (carries_iff_of_vw p n v hn).1 ((presentable_iff p i).1 hp v hi)
  omega

theorem push_unpresentable (i : Instr) (s : State) (h : s.params.presentable i = false) :
    push i s = .refused .valueNotPresentable := by simp [push, h]

theorem encode1_unpresentable (i : Instr) (s : State) (h : s.params.presentable i = false) :
    encode1 i s = .refused .valueNotPresentable := by simp [encode1, h]

theorem encode1_presentable (i : Instr) (s : State) (h : s.params.presentable i = true) :
    encode1 i s = .next (s.respond (encode1Result i)) := by simp [encode1, h]

/-! Push (R143). -/

/-- A Push of a record that can be presented completes in FAILED, and in COLLECT while there is room. -/
theorem push_completes (i : Instr) (s : State) (hp : s.params.presentable i = true)
    (hr : s.phase = .failed ∨ s.params.hasRoom s.idx = true) : ∃ t, push i s = .next t := by
  cases hph : s.phase with
  | failed => exact ⟨s, push_discard i s hp hph⟩
  | collect =>
    have hroom : s.params.hasRoom s.idx = true := hr.resolve_left (by simp [hph])
    rcases check_cases i with hc | ⟨e, hc⟩
    · exact ⟨_, push_accept i s hp hph hroom hc⟩
    · exact ⟨_, push_fail i s e hp hph hroom hc⟩

/-- A Push leaves the parameters and the host's side alone. -/
theorem push_frame {i : Instr} {s t : State} (h : push i s = .next t) :
    t.params = s.params ∧ t.inbox = s.inbox ∧ t.outbox = s.outbox := by
  obtain ⟨-, ⟨-, -, _, rfl⟩ | ⟨-, -, _, -, rfl⟩ | ⟨-, rfl⟩⟩ := push_next_cases i s t h <;> simp

/-! `step` by the operation at the front of the inbox (R30). -/

theorem step_idle (s : State) (h : s.inbox = []) : step s = .refused .noOperationPending := by
  simp [step, h]

theorem step_reset (s : State) (rest : List HostOp) (h : s.inbox = .reset :: rest) :
    step s = .next (s.withInbox rest).toInitial := by simp [step, h]

theorem step_push (s : State) (i : Instr) (rest : List HostOp) (h : s.inbox = .push i :: rest) :
    step s = exec i (s.withInbox rest) := by simp [step, h]

theorem step_finish (s : State) (rest : List HostOp) (h : s.inbox = .finish :: rest) :
    step s = .next (finish (s.withInbox rest)) := by simp [step, h]

theorem step_encode1 (s : State) (i : Instr) (rest : List HostOp) (h : s.inbox = .encode1 i :: rest) :
    step s = encode1 i (s.withInbox rest) := by simp [step, h]

/-- Every step leaves the parameters as they were (R34). -/
theorem step_params {s t : State} (h : step s = .next t) : t.params = s.params := by
  obtain ⟨op, rest, -, ⟨-, rfl⟩ | ⟨i, -, hi⟩ | ⟨-, rfl⟩ | ⟨i, -, -, rfl⟩⟩ := step_next_cases s t h
  case inr.inl => exact (push_frame hi).1
  all_goals simp

/-! Results (R142, R147, R148). -/

theorem finishResult_collect (s : State) (h : s.phase = .collect) :
    finishResult s = .delivered (Memory.bytes s.obuf) := by simp [finishResult, h]

theorem finishResult_failed (s : State) (h : s.phase = .failed) : finishResult s = .rejected s.err := by
  simp [finishResult, h]

/-- Finish delivers a stream only in COLLECT, and then the buffer's. -/
theorem finishResult_eq_delivered (s : State) (bytes : List Byte) :
    finishResult s = .delivered bytes ↔ s.phase = .collect ∧ bytes = Memory.bytes s.obuf := by
  cases h : s.phase with
  | collect => simp [finishResult_collect s h, eq_comm]
  | failed => simp [finishResult_failed s h]

theorem encode1Result_ne_delivered (i : Instr) (bytes : List Byte) : encode1Result i ≠ .delivered bytes := by
  unfold encode1Result
  split <;> simp

/-- What a step adds to the outbox: a delivered stream is the sole result of a Finish in COLLECT, and is the buffer's. -/
theorem step_outbox {s t : State} (h : step s = .next t) :
    ∃ new, t.outbox = s.outbox ++ new ∧ ∀ bytes, .delivered bytes ∈ new →
      new = [.delivered bytes] ∧ s.phase = .collect ∧ (∃ rest, s.inbox = .finish :: rest) ∧
        bytes = Memory.bytes s.obuf := by
  obtain ⟨op, rest, hs, hop⟩ := step_next_cases s t h
  obtain ⟨rfl, rfl⟩ | ⟨i, rfl, hi⟩ | ⟨rfl, rfl⟩ | ⟨i, rfl, -, rfl⟩ := hop
  case inl => exact ⟨[], by simp⟩
  case inr.inl => exact ⟨[], by simp [(push_frame hi).2.2]⟩
  case inr.inr.inl =>
    refine ⟨[finishResult (s.withInbox rest)], by simp, fun bytes hb => ?_⟩
    have hres : finishResult (s.withInbox rest) = .delivered bytes := (List.mem_singleton.1 hb).symm
    obtain ⟨hph, hbytes⟩ := (finishResult_eq_delivered _ _).1 hres
    exact ⟨by rw [hres], hph, ⟨rest, hs⟩, hbytes⟩
  case inr.inr.inr =>
    refine ⟨[encode1Result i], by simp, fun bytes hb => ?_⟩
    exact absurd (List.mem_singleton.1 hb).symm (encode1Result_ne_delivered i bytes)

/-! The loop of `assemble` (R150). -/

/-- After a first part that assembles, the loop goes on with the stream and the index reached. -/
theorem assembleFrom_append {n : Nat} {out bytes : List Byte} {is : List Instr} (js : List Instr)
    (h : assembleFrom n out is = .ok bytes) :
    assembleFrom n out (is ++ js) = assembleFrom (n + is.length) bytes js := by
  induction is generalizing n out with
  | nil =>
    obtain rfl : out = bytes := by simpa [assembleFrom] using h
    rfl
  | cons i is ih =>
    simp only [assembleFrom, List.cons_append, List.length_cons] at h ⊢
    split at h
    · simp at h
    · rw [ih h, Nat.add_right_comm, Nat.add_assoc]

/-- One more record that passes the check appends its 13 bytes. -/
theorem assemble_snoc {is : List Instr} {bytes : List Byte} (h : assemble is = .ok bytes) (i : Instr)
    (hi : check i = .ok) : assemble (is ++ [i]) = .ok (bytes ++ serialize (pack i hi)) := by
  rw [assemble, assembleFrom_append [i] h, assembleFrom, encodeRecord_ok i hi]
  rfl

end Sys2Proof.Machine
end

section
/-! SUPPORT. The invariant of R28 under each update of the state, and what it says of the buffer and the report. -/

namespace Sys2Proof.Machine

/-! Sound reports (R26). -/

theorem sound_fieldOverflow_iff (p : Params) (r : ErrorReport) (h : r.cause = .fieldOverflow) :
    r.sound p = true ↔ r.present = r.kind.shape ∧ r.field ≠ .a ∧ r.field ∈ r.kind.format.fields ∧
      r.max = r.field.max ∧ r.max < r.value ∧ p.carries r.value = true := by
  simp [ErrorReport.sound, h, and_assoc]

theorem sound_malformedRecord_iff (p : Params) (r : ErrorReport) (h : r.cause = .malformedRecord) :
    r.sound p = true ↔ r.present ≠ r.kind.shape ∧ r.field = .a ∧ r.value = 0 ∧ r.max = 0 := by
  simp [ErrorReport.sound, h, and_assoc]

/-- The report of a failing Push is sound: the check tells the cause, and the record's values were presented. -/
theorem reportOf_sound {p : Params} {i : Instr} {e : CheckError} (n : Nat) (hp : p.presentable i = true)
    (h : check i = .err e) : (reportOf n i e).sound p = true := by
  obtain ⟨rfl, hshape⟩ | ⟨f, v, rfl, hshape, hfa, hmem, hv, hlt⟩ := check_err i e h
  · exact (sound_malformedRecord_iff p _ rfl).2 ⟨hshape, rfl, rfl, rfl⟩
  · exact (sound_fieldOverflow_iff p _ rfl).2 ⟨hshape, hfa, hmem, rfl, hlt, carries_of_presentable hp hfa hv⟩

theorem field_max_lt (f : Field) : f.max < 2 ^ 32 := by cases f <;> simp

/-- A sound report's maximum fits ERR_MAX and its value fits ERR_VALUE (R32). -/
theorem sound_bounds {p : Params} {r : ErrorReport} (h : r.sound p = true) :
    r.max < 2 ^ 32 ∧ p.carries r.value = true := by
  cases hc : r.cause with
  | fieldOverflow =>
    obtain ⟨-, -, -, hmax, -, hcar⟩ := (sound_fieldOverflow_iff p r hc).1 h
    exact ⟨hmax ▸ field_max_lt r.field, hcar⟩
  | malformedRecord =>
    obtain ⟨-, -, hval, hmax⟩ := (sound_malformedRecord_iff p r hc).1 h
    exact ⟨by omega, hval ▸ carries_zero p⟩

/-! The capacity (R25). -/

theorem withinCapacity_zero {s : State} (h : s.idx = 0) : s.withinCapacity := fun n _ => by omega

/-- Room for one more record: the next index is still within the capacity. -/
theorem withinCapacity_succ {s : State} (h : s.params.hasRoom s.idx = true) (n : Nat)
    (hn : s.params.maxRec = some n) : s.idx + 1 ≤ n := by
  simpa [Params.hasRoom, hn] using h

/-! The invariant (R28). -/

/-- The initial state of R33 meets the invariant, whatever the parameters and the host's side. -/
theorem State.Inv.of_initial {s : State} (hp : s.params.wf = true) (hph : s.phase = .collect) (hidx : s.idx = 0)
    (herr : s.err = none) (hobuf : s.obuf = []) : s.Inv where
  paramsWf := hp
  canonical := by rw [hobuf]; rfl
  capacity := withinCapacity_zero hidx
  collecting _ := ⟨herr, by simp [hobuf, hidx], [], by simp [hidx], by rw [hobuf]; rfl⟩
  failed hf := by simp [hph] at hf

/-- The invariant does not speak of the host's side. -/
theorem State.Inv.withInbox {s : State} (h : s.Inv) (ops : List HostOp) : (s.withInbox ops).Inv :=
  ⟨h.paramsWf, h.canonical, h.capacity, h.collecting, h.failed⟩

theorem State.Inv.respond {s : State} (h : s.Inv) (r : Response) : (s.respond r).Inv :=
  ⟨h.paramsWf, h.canonical, h.capacity, h.collecting, h.failed⟩

theorem State.Inv.toInitial {s : State} (h : s.Inv) : s.toInitial.Inv :=
  .of_initial h.paramsWf rfl rfl rfl rfl

theorem State.Inv.finish {s : State} (h : s.Inv) : (finish s).Inv := (h.respond _).toInitial

/-- Every stream offset in use is below 13 * idx. -/
theorem State.Inv.offset_lt {s : State} (h : s.Inv) : ∀ c ∈ s.obuf, c.1 < 13 * s.idx := by
  intro c hc
  cases hph : s.phase with
  | collect =>
    have hoff : c.1 ∈ s.obuf.map (·.1) := List.mem_map_of_mem hc
    rw [(h.collecting hph).2.1] at hoff
    exact List.mem_range.1 hoff
  | failed => simp [(h.failed hph).1] at hc

/-- Appending an accepted record's word (R144) keeps the invariant: the offsets go on where they ended, and the program
is one record longer. -/
theorem State.Inv.accept {s : State} {i : Instr} (h : s.Inv) (hph : s.phase = .collect)
    (hroom : s.params.hasRoom s.idx = true) (hi : check i = .ok) : (s.accept (pack i hi)).Inv where
  paramsWf := h.paramsWf
  canonical := Memory.writeWord_wf _ _ _ h.canonical
  capacity := withinCapacity_succ hroom
  collecting _ := by
    obtain ⟨herr, hoff, is, hlen, hasm⟩ := h.collecting hph
    obtain ⟨hoffs, hbytes⟩ :=
      Memory.writeBytes_append s.obuf (storeAddress s) (serialize (pack i hi)) h.offset_lt
    refine ⟨herr, ?_, is ++ [i], by simp [hlen], ?_⟩
    · rw [State.accept_obuf, State.accept_idx, Memory.writeWord, hoffs, hoff, serialize_length, storeAddress,
        List.range_eq_range', List.range_eq_range', Nat.mul_succ, ← List.range'_append_1, Nat.zero_add]
    · rw [assemble_snoc hasm i hi, State.accept_obuf, Memory.writeWord, hbytes]
  failed hf := by simp [hph] at hf

/-- Entering FAILED (R168) keeps the invariant: the latched report is sound. -/
theorem State.Inv.raise {s : State} {i : Instr} {e : CheckError} (h : s.Inv)
    (hp : s.params.presentable i = true) (hroom : s.params.hasRoom s.idx = true) (he : check i = .err e) :
    (s.raise i e).Inv where
  paramsWf := h.paramsWf
  canonical := rfl
  capacity := h.capacity
  collecting hc := by simp at hc
  failed _ := ⟨rfl, hroom, reportOf s.idx i e, rfl, reportOf_index s.idx i e, reportOf_sound s.idx hp he⟩

theorem State.Inv.push {s t : State} {i : Instr} (h : s.Inv) (ht : push i s = .next t) : t.Inv := by
  obtain ⟨hp, ⟨hph, hroom, hi, rfl⟩ | ⟨-, hroom, e, he, rfl⟩ | ⟨-, rfl⟩⟩ := push_next_cases i s t ht
  · exact h.accept hph hroom hi
  · exact h.raise hp hroom he
  · exact h

theorem State.Inv.step {s t : State} (h : s.Inv) (ht : step s = .next t) : t.Inv := by
  obtain ⟨op, rest, -, ⟨-, rfl⟩ | ⟨i, -, hi⟩ | ⟨-, rfl⟩ | ⟨i, -, -, rfl⟩⟩ := step_next_cases s t ht
  · exact (h.withInbox rest).toInitial
  · exact (h.withInbox rest).push hi
  · exact (h.withInbox rest).finish
  · exact (h.withInbox rest).respond _

/-- A report stands only in FAILED, with index idx, and is sound. -/
theorem State.Inv.report {s : State} {r : ErrorReport} (h : s.Inv) (hr : s.err = some r) :
    r.index = s.idx ∧ r.sound s.params = true := by
  cases hph : s.phase with
  | collect => simp [(h.collecting hph).1] at hr
  | failed =>
    obtain ⟨-, -, r', hr', hidx, hsound⟩ := h.failed hph
    obtain rfl : r' = r := Option.some.inj (hr'.symm.trans hr)
    exact ⟨hidx, hsound⟩

end Sys2Proof.Machine
end

section
/-! SUPPORT. The status registers (R32): every numeric code of R162 stands for one value. -/

namespace Sys2Proof.Machine

theorem kindCode_inj {k l : Kind} : kindCode k = kindCode l ↔ k = l := by
  cases k <;> cases l <;> decide

theorem fieldCode_inj {f g : Field} : fieldCode f = fieldCode g ↔ f = g := by
  cases f <;> cases g <;> decide

theorem causeCode_inj {c d : Cause} : causeCode c = causeCode d ↔ c = d := by
  cases c <;> cases d <;> decide

/-- A cause's code is neither "no error" nor the code that is never produced. -/
theorem causeCode_ne (c : Cause) : causeCode c ≠ 0 ∧ causeCode c ≠ 3 := by cases c <;> decide

/-- The presence mask gives the presence set back. -/
theorem presentOfMask_presentMask (q : FieldSet) : presentOfMask (presentMask q) = q := by
  obtain ⟨b, c, d⟩ := q
  cases b <;> cases c <;> cases d <;> decide

theorem statusST_eq_one (s : State) : statusST s = 1 ↔ s.phase = .failed := by
  cases h : s.phase <;> simp [statusST, h]

@[simp] theorem statusRegs_st (s : State) : (statusRegs s).st = statusST s := by
  unfold statusRegs
  split <;> rfl

@[simp] theorem statusRegs_idx (s : State) : (statusRegs s).idx = s.idx := by
  unfold statusRegs
  split <;> rfl

theorem statusRegs_of_err_none (s : State) (h : s.err = none) :
    statusRegs s =
      { st := statusST s, idx := s.idx, errCause := 0, errIndex := 0, errKind := 0, errPresent := 0, errField := 0,
        errValue := 0, errMax := 0 } := by simp [statusRegs, h]

theorem statusRegs_of_err_some (s : State) (r : ErrorReport) (h : s.err = some r) :
    statusRegs s =
      { st := statusST s, idx := s.idx, errCause := causeCode r.cause, errIndex := r.index,
        errKind := kindCode r.kind, errPresent := presentMask r.present, errField := fieldCode r.field,
        errValue := r.value, errMax := BitVec.ofNat 32 r.max } := by simp [statusRegs, h]

/-- IW bits hold every index within the capacity (R25). -/
theorem State.withinCapacity.idx_lt {s : State} (h : s.withinCapacity) {w : Nat}
    (hw : indexWidth s.params = some w) : s.idx < 2 ^ w := by
  obtain ⟨n, hn, rfl⟩ := Option.map_eq_some_iff.1 hw
  exact lt_of_le_of_lt (h n hn) Nat.lt_log2_self

end Sys2Proof.Machine
end

section
/-! SUPPORT. The ports (R31): when a command transfers, and the cycles of a Finish with both sides ready. -/

namespace Sys2Proof.Machine

/-- A record on value inputs that fit can be presented: an absent field carries no value (R21, R22). -/
theorem presentable_record {inp : PortIn} {p : Params} (h : inp.carried p = true) :
    p.presentable inp.record = true := by
  simp only [PortIn.carried, Bool.and_eq_true] at h
  obtain ⟨⟨hb, hc⟩, hd⟩ := h
  rw [presentable_iff, PortIn.record, ops_record]
  intro v hv
  simp only [Option.ite_none_right_eq_some, Option.some.injEq] at hv
  obtain ⟨-, rfl⟩ | ⟨-, rfl⟩ | ⟨-, rfl⟩ := hv
  · exact hb
  · exact hc
  · exact hd

theorem cmdReady_iff (inp : PortIn) (p : PortState) :
    cmdReady inp p = true ↔ inp.willing = true ∧ p.busy = none ∧
      (inp.cmdFinish = true ∨ p.core.phase = .failed ∨ p.core.params.hasRoom p.core.idx = true) := by
  simp [cmdReady, and_assoc, or_assoc]

/-- A Push transfer takes the block to the state of the Push. -/
theorem portCycle_push {inp : PortIn} {p : PortState} {s : State} (hc : inp.carried p.core.params = true)
    (hr : inp.rst = false) (hv : inp.cmdValid = true) (hf : inp.cmdFinish = false) (hready : cmdReady inp p = true)
    (hs : push inp.record p.core = .next s) :
    portCycle inp p = .next { core := s, busy := none, draw := p.draw + 1 } := by
  have hb : p.busy = none := ((cmdReady_iff inp p).1 hready).2.1
  simp [portCycle, hc, hr, hb, hv, hready, hf, hs]

/-- With nothing in progress and cmd_ready 0 only the cycle number changes. -/
theorem portCycle_wait {inp : PortIn} {p : PortState} (hc : inp.carried p.core.params = true)
    (hr : inp.rst = false) (hb : p.busy = none) (hready : cmdReady inp p = false) :
    portCycle inp p = .next { p with draw := p.draw + 1 } := by
  simp [portCycle, hc, hr, hb, hready]

/-- A Finish transfer puts the stream in progress. -/
theorem portCycle_finish {inp : PortIn} {p : PortState} (hc : inp.carried p.core.params = true)
    (hr : inp.rst = false) (hv : inp.cmdValid = true) (hf : inp.cmdFinish = true) (hready : cmdReady inp p = true) :
    portCycle inp p = .next { core := p.core, busy := some (finishBytes p.core), draw := p.draw + 1 } := by
  have hb : p.busy = none := ((cmdReady_iff inp p).1 hready).2.1
  simp [portCycle, hc, hr, hb, hv, hready, hf]

theorem finishBytes_collect (s : State) (h : s.phase = .collect) : finishBytes s = Memory.bytes s.obuf := by
  simp [finishBytes, h]

theorem finishBytes_failed (s : State) (h : s.phase = .failed) : finishBytes s = [] := by simp [finishBytes, h]

/-- A record that passes the check shows its word on pk_word. -/
theorem pkWord_of_check_ok (i : Instr) (h : check i = .ok) (draw : Nat) : pkWord i draw = pack i h := by
  simp [pkWord, packRecord_ok i h]

section Sending

variable {inp : PortIn} {c : State} (hc : inp.carried c.params = true) (hr : inp.rst = false)
  (hw : inp.willing = true)
include hc hr hw

/-- With both sides of the out channel ready a cycle sends one byte. -/
theorem portCycle_sending (ho : inp.outReady = true) (x : Byte) (left : List Byte) (n : Nat) :
    portCycle inp { core := c, busy := some (x :: left), draw := n } =
      .next { core := c, busy := some left, draw := n + 1 } := by
  have hsent : outTransfer inp { core := c, busy := some (x :: left), draw := n } = some x := by
    simp [outTransfer_sending inp { core := c, busy := some (x :: left), draw := n } x left rfl, ho, hw]
  simp [portCycle, hc, hr, hsent]

/-- Once the bytes are out, the done transfer performs the Finish. -/
theorem portCycle_done (hd : inp.doneReady = true) (n : Nat) :
    portCycle inp { core := c, busy := some [], draw := n } =
      .next { core := finish c, busy := none, draw := n + 1 } := by
  have hdone : doneTransfer inp { core := c, busy := some [], draw := n } = true := by
    simp [doneTransfer_drained inp { core := c, busy := some [], draw := n } rfl, hd, hw]
  simp [portCycle, hc, hr, hdone]

/-- One cycle for each byte left and one for the done transfer: the bytes go out in order, and the Finish is performed. -/
theorem portRun_sending (ho : inp.outReady = true) (hd : inp.doneReady = true) (left : List Byte) (n : Nat)
    (sent : List Byte) :
    portRun (List.replicate (left.length + 1) inp) { core := c, busy := some left, draw := n } sent =
      .next ({ core := finish c, busy := none, draw := n + left.length + 1 }, sent ++ left) := by
  induction left generalizing n sent with
  | nil =>
    rw [List.length_nil, List.replicate_succ, portRun_next _ _ _ _ _ (portCycle_done hc hr hw hd n),
      outTransfer_drained _ _ rfl]
    rfl
  | cons x left ih =>
    rw [List.length_cons, List.replicate_succ, portRun_next _ _ _ _ _ (portCycle_sending hc hr hw ho x left n),
      outTransfer_sending _ _ x left rfl, ih]
    simp [ho, hw, Nat.add_comm 1, Nat.add_assoc]

end Sending

end Sys2Proof.Machine
end

section
/-! PROOFS. The obligations of the family 10_state. -/

namespace Sys2Proof.Machine

/-- Settles O39, by the one inversion of `step` and a lemma for each update of the state. -/
theorem everyStepKeepsTheInvariant : Obligations.EveryStepKeepsTheInvariant :=
  fun _ _ hinv hstep => hinv.step hstep

/-- Settles O36: of the four operations only Push asks for room. -/
theorem everyOtherOperationCompletes : Obligations.EveryOtherOperationCompletes := by
  intro s op rest hs hp hroom
  cases op with
  | reset => exact ⟨_, step_reset s rest hs, rfl⟩
  | finish => exact ⟨_, step_finish s rest hs, rfl⟩
  | push i =>
    obtain ⟨t, ht⟩ := push_completes i (s.withInbox rest) (hp i (.inl rfl)) (hroom i rfl)
    exact ⟨t, by rw [step_push s i rest hs, exec_eq_push, ht], (push_frame ht).2.1⟩
  | encode1 i =>
    exact ⟨_, (step_encode1 s i rest hs).trans (encode1_presentable i _ (hp i (.inr rfl))), rfl⟩

/-- Settles O40: a delivered stream is the buffer of a state in COLLECT, which the invariant says is a program's. -/
theorem onlyWholeProgramsAreDelivered : Obligations.OnlyWholeProgramsAreDelivered := by
  intro s t hinv hstep
  obtain ⟨new, hout, hnew⟩ := step_outbox hstep
  have hprogram : ∀ bytes, .delivered bytes ∈ new →
      ∃ is : List Instr, is.length = s.idx ∧ assemble is = .ok bytes := by
    intro bytes hb
    obtain ⟨-, hph, -, rfl⟩ := hnew bytes hb
    exact (hinv.collecting hph).2.2
  refine ⟨fun hsound bytes hb => ?_, new, hout, fun bytes hb => ?_, fun hf bytes hb => ?_⟩
  · rw [hout, List.mem_append] at hb
    rcases hb with hb | hb
    · exact hsound bytes hb
    · obtain ⟨is, -, his⟩ := hprogram bytes hb
      exact ⟨is, his⟩
  · obtain ⟨hsingle, hph, hfin, hbytes⟩ := hnew bytes hb
    exact ⟨hsingle, hph, hfin, hbytes, hprogram bytes hb⟩
  · obtain ⟨-, hph, -, -⟩ := hnew bytes hb
    simp [hph] at hf

/-- Settles O44: the outbox half is a part of what `step_outbox` says. -/
theorem parametersNeverChange : Obligations.ParametersNeverChange := by
  intro s t hstep
  obtain ⟨new, hout, -⟩ := step_outbox hstep
  exact ⟨step_params hstep, new, hout⟩

/-- Settles O45: the next state meets the invariant, whose offsets end at 13 * idx. -/
theorem bufferStaysWithinCapacity : Obligations.BufferStaysWithinCapacity := by
  intro s t n hinv hn hstep
  have hinv' : t.Inv := hinv.step hstep
  have hidx : t.idx ≤ n := hinv'.capacity n (by rw [step_params hstep, hn])
  refine ⟨fun c hc => ?_, hidx⟩
  have hlt := hinv'.offset_lt c hc
  omega

/-- Settles O47: each code is injective, and a report that stands is sound. -/
theorem statusRegistersEncodeTheState : Obligations.StatusRegistersEncodeTheState := by
  intro s
  refine ⟨by rw [statusRegs_st]; exact statusST_eq_one s, statusRegs_idx s,
    fun h => by simp [statusRegs_of_err_none s h], fun hinv => ?_⟩
  have hiw : ∀ w, indexWidth s.params = some w → s.idx < 2 ^ w := fun w hw => hinv.capacity.idx_lt hw
  cases herr : s.err with
  | none =>
    rw [statusRegs_of_err_none s herr]
    exact ⟨by simp, by simp, by simp, fun w hw => ⟨hiw w hw, by positivity⟩, carries_zero s.params⟩
  | some r =>
    obtain ⟨hindex, hsound⟩ := hinv.report herr
    obtain ⟨hmax, hvalue⟩ := sound_bounds hsound
    have hmask := presentOfMask_presentMask r.present
    rw [statusRegs_of_err_some s r herr]
    refine ⟨iff_of_false (causeCode_ne r.cause).1 (by simp), (causeCode_ne r.cause).2, ?_,
      fun w hw => ⟨hiw w hw, hindex ▸ hiw w hw⟩, hvalue⟩
    rintro _ ⟨rfl⟩
    refine ⟨rfl, causeCode_inj (d := .fieldOverflow), causeCode_inj (d := .malformedRecord),
      kindCode_inj (l := .loadConst), kindCode_inj (l := .readMem), kindCode_inj (l := .writeMem),
      kindCode_inj (l := .not), congrArg FieldSet.b hmask, congrArg FieldSet.c hmask, congrArg FieldSet.d hmask,
      fieldCode_inj (g := .a), fieldCode_inj (g := .b), fieldCode_inj (g := .c), fieldCode_inj (g := .d), rfl,
      Nat.mod_eq_of_lt hmax, fun hcause => ?_⟩
    obtain ⟨-, hfield, hval, hzero⟩ := (sound_malformedRecord_iff s.params r hcause).1 hsound
    exact ⟨fieldCode_inj.2 hfield, hval, congrArg (BitVec.ofNat 32) hzero⟩

/-- Settles O54: cmd_ready is 1 for a Push only where the Push completes. -/
theorem portPushHasTheEffectOfPush : Obligations.PortPushHasTheEffectOfPush := by
  intro inp p hc hr hv hf
  refine ⟨fun hready => ?_, fun hready hb => portCycle_wait hc hr hb hready, fun hph hfull => ?_⟩
  · obtain ⟨-, -, hroom⟩ := (cmdReady_iff inp p).1 hready
    obtain ⟨s, hs⟩ := push_completes inp.record p.core (presentable_record hc) (hroom.resolve_left (by simp [hf]))
    exact ⟨s, by rw [exec_eq_push, hs], portCycle_push hc hr hv hf hready hs⟩
  · rw [Bool.eq_false_iff, Ne, cmdReady_iff]
    simp [hf, hph, hfull]

/-- Settles O55, by induction on the bytes left to send (`portRun_sending`). -/
theorem portFinishSendsTheStream : Obligations.PortFinishSendsTheStream := by
  intro p inp fin hb hcf hci hrf hri hv hf hwf hwi ho hd
  have hready : cmdReady fin p = true := (cmdReady_iff fin p).2 ⟨hwf, hb, .inl hf⟩
  refine ⟨?_, fun hph => ?_, fun hph => ⟨finishResult_failed _ hph, finishBytes_failed _ hph⟩⟩
  · rw [portRun_next _ _ _ _ _ (portCycle_finish hcf hrf hv hf hready), outTransfer_idle _ _ hb,
      portRun_sending hci hri hwi ho hd]
    simp [Nat.add_right_comm]
  · rw [finishResult_collect _ hph, finishBytes_collect _ hph]

/-- Settles O27: both operations ask first whether the record can be presented. -/
theorem unpresentableRecordIsRefused : Obligations.UnpresentableRecordIsRefused := by
  intro i s n v hn hv hi
  have hp : s.params.presentable i = false := presentable_eq_false hn hv hi
  exact ⟨by rw [exec_eq_push, push_unpresentable i s hp], encode1_unpresentable i s hp⟩

/-- Settles O34: `withFetchWord` puts a Push of the decoded record at the front, and the step takes it off again. -/
theorem stepRunsThePresentedRecord : Obligations.StepRunsThePresentedRecord := by
  refine ⟨step_push, fun s nbits w i hi => ?_⟩
  have hfetch : s.withFetchWord nbits w = s.withInbox (.push i :: s.inbox) := by simp [State.withFetchWord, hi]
  rw [hfetch, step_push _ i s.inbox rfl, State.withInbox_withInbox, State.withInbox_self]

/-- Settles O35, the idle case of `step`. -/
theorem idleBlockTakesNoStep : Obligations.IdleBlockTakesNoStep := step_idle

/-- Settles O37: no report stands at reset, so every ERR_ register reads 0. -/
theorem initialStateAtReset : Obligations.InitialStateAtReset :=
  ⟨rfl, rfl, rfl, rfl, statusRegs_of_err_none State.reset rfl⟩

/-- Settles O38: reset is an initial state of R33 with parameters that meet R7. -/
theorem invariantHoldsAtReset : Obligations.InvariantHoldsAtReset := .of_initial rfl rfl rfl rfl rfl

/-- Settles O53: the outputs are read off the verdict of `check`, whose maxima fit chk_max. -/
theorem combinationalOutputsShowTheVerdict : Obligations.CombinationalOutputsShowTheVerdict := by
  intro inp p
  refine ⟨by simp [portOut], fun h => ?_, fun f v m h => ?_, fun k q h => ?_⟩
  · simp only [portOut, h]
    exact ⟨pkWord_of_check_ok _ h p.draw, rfl, rfl, rfl, rfl⟩
  · have hm : m < 2 ^ 32 := by
      obtain ⟨he, -⟩ | ⟨g, x, he, -⟩ := check_err _ _ h
      · simp at he
      · injection he with _ _ hm
        exact hm ▸ field_max_lt g
    simp only [portOut, h]
    exact ⟨rfl, rfl, rfl, Nat.mod_eq_of_lt hm⟩
  · simp only [portOut, h]
    exact ⟨rfl, rfl, rfl, rfl⟩

end Sys2Proof.Machine
end

section
/-! SUPPORT. What passing the check says of a record written `B=, C=` or `B=, C=, D=` (R83), for the check of the
machine and the static one alike. -/

namespace Sys2Proof.Machine

/-- A record that passes the check is written `B=, C=` or `B=, C=, D=`. -/
theorem ops_of_check_ok {i : Instr} (h : check i = .ok) :
    (∃ b c, i.ops = Operands.bc b c) ∨ ∃ b c d, i.ops = Operands.bcd b c d := by
  cases hf : i.kind.format with
  | f3 =>
    obtain ⟨b, c, ho, -⟩ := (check_f3 i hf).1 h
    exact .inl ⟨b, c, ho⟩
  | f4 =>
    obtain ⟨b, c, d, ho, -⟩ := (check_f4 i hf).1 h
    exact .inr ⟨b, c, d, ho⟩

/-- `B=<b>, C=<c>` passes exactly in format F3, with both values in range. -/
theorem check_bc {i : Instr} {b c : Nat} (ho : i.ops = Operands.bc b c) :
    check i = .ok ↔ i.kind.format = .f3 ∧ b ≤ 63 ∧ c ≤ 4294967295 := by
  cases hf : i.kind.format with
  | f3 => simp [check_f3 i hf, ho, Operands.bc]
  | f4 => simp [check_f4 i hf, ho, Operands.bc]

/-- `B=<b>, C=<c>, D=<d>` passes exactly in format F4, with all three values in range. -/
theorem check_bcd {i : Instr} {b c d : Nat} (ho : i.ops = Operands.bcd b c d) :
    check i = .ok ↔ i.kind.format = .f4 ∧ b ≤ 63 ∧ c ≤ 4294967295 ∧ d ≤ 4294967295 := by
  cases hf : i.kind.format with
  | f3 => simp [check_f3 i hf, ho, Operands.bcd]
  | f4 => simp [check_f4 i hf, ho, Operands.bcd]

/-- Syntactic well-formedness is the machine's check, format by format. -/
theorem wellFormed_iff_check_ok (i : Instr) : i.wellFormed = true ↔ check i = .ok := by
  cases hf : i.kind.format with
  | f3 =>
    rw [check_f3 i hf]
    rcases ho : i.ops with ⟨_ | b, _ | c, _ | d⟩ <;> simp [Instr.wellFormed, hf, ho]
  | f4 =>
    rw [check_f4 i hf]
    rcases ho : i.ops with ⟨_ | b, _ | c, _ | d⟩ <;> simp [Instr.wellFormed, hf, ho, and_assoc]

end Sys2Proof.Machine
end

section
/-! SUPPORT. Slices of a word (R8) as bits, as terms of its sum and under a mask. -/

namespace Sys2Proof

theorem Word.slice_lt (w : Word) (hi lo : Nat) : w.slice hi lo < 2 ^ (hi - lo + 1) :=
  Nat.mod_lt _ (by positivity)

theorem Word.slice_eq_div_mod (w : Word) (hi lo : Nat) :
    w.slice hi lo = w.toNat / 2 ^ lo % 2 ^ (hi - lo + 1) := by
  rw [Word.slice, Nat.shiftRight_eq_div_pow]

/-- The bits of a slice that reads 0 are 0. -/
theorem Word.getLsbD_of_slice_eq_zero {w : Word} {hi lo k : Nat} (h : w.slice hi lo = 0) (hlo : lo ≤ k)
    (hhi : k ≤ hi) : w.getLsbD k = false := by
  have hbit : (w.slice hi lo).testBit (k - lo) = false := by rw [h, Nat.zero_testBit]
  rw [Word.slice, Nat.testBit_mod_two_pow, Nat.testBit_shiftRight, Nat.add_sub_cancel' hlo] at hbit
  simpa [show k - lo < hi - lo + 1 by omega, BitVec.getLsbD] using hbit

/-- The mask with a 1 at exactly the bits of `w[hi:lo]`. -/
def sliceMask (hi lo : Nat) : Nat := (2 ^ (hi - lo + 1) - 1) <<< lo

/-- A slice mask keeps the slice in its place and clears every other bit. -/
theorem Word.and_sliceMask (w : Word) (hi lo : Nat) :
    w.toNat &&& sliceMask hi lo = w.slice hi lo <<< lo := by
  refine Nat.eq_of_testBit_eq fun k => ?_
  simp only [sliceMask, Word.slice, Nat.testBit_and, Nat.testBit_shiftLeft, Nat.testBit_two_pow_sub_one,
    Nat.testBit_mod_two_pow, Nat.testBit_shiftRight]
  by_cases hk : lo ≤ k
  · simp [hk, Bool.and_comm]
  · simp [hk]

/-- Concatenation as a sum. -/
theorem toNat_append_eq_add {m n : Nat} (x : BitVec m) (y : BitVec n) :
    (x ++ y).toNat = x.toNat * 2 ^ n + y.toNat := by
  rw [BitVec.toNat_append, ← Nat.shiftLeft_add_eq_or_of_lt y.isLt, Nat.shiftLeft_eq]

theorem layoutF3_toNat (a : BitVec 5) (b : BitVec 6) (c : BitVec 32) :
    (layoutF3 a b c).toNat = a.toNat * 2 ^ 99 + b.toNat * 2 ^ 93 + c.toNat := by
  simp only [layoutF3, toNat_append_eq_add, BitVec.toNat_ofNat]
  omega

theorem layoutF4_toNat (a : BitVec 5) (b : BitVec 6) (c d : BitVec 32) :
    (layoutF4 a b c d).toNat = a.toNat * 2 ^ 99 + b.toNat * 2 ^ 93 + c.toNat * 2 ^ 61 + d.toNat := by
  simp only [layoutF4, toNat_append_eq_add, BitVec.toNat_ofNat]
  omega

end Sys2Proof
end

section
/-! SUPPORT. A word read by a format: its operand slots and the bits no field covers; and the packed word by them. -/

namespace Sys2Proof

/-- The highest bit of the run of bits down to bit 32 that no field covers: [92:32] in F3, [60:32] in F4 (R77). -/
def Format.gapTop : Format → Nat
  | .f3 => 92
  | .f4 => 60

/-- The bits of a word that no field of the format covers, as a number. -/
def Format.gap (fm : Format) (w : Word) : Nat := w.slice fm.gapTop 32

/-- The operands that stand in a word's slots. -/
def Format.operands : Format → Word → Operands
  | .f3, w => Operands.bc (w.slice 98 93) (w.slice 31 0)
  | .f4, w => Operands.bcd (w.slice 98 93) (w.slice 92 61) (w.slice 31 0)

theorem Format.gap_lt (fm : Format) (w : Word) : fm.gap w < 2 ^ 61 :=
  lt_of_lt_of_le (w.slice_lt _ _) (by cases fm <;> decide)

/-- A record that stands in a word's slots has each field of its format at that field's offset and width (R6). -/
theorem Instr.value_eq_slice {i : Instr} {w : Word} {f : Field} (ha : w.slice 103 99 = i.kind.opcode)
    (ho : i.ops = i.kind.format.operands w) (hf : f ∈ i.kind.format.fields) :
    i.value f = some (w.slice (i.kind.format.offset f + f.width - 1) (i.kind.format.offset f)) := by
  cases f with
  | a => exact congrArg some ha.symm
  | b => rw [Instr.value, ho]; cases i.kind.format <;> rfl
  | c => rw [Instr.value, ho]; cases i.kind.format <;> rfl
  | d =>
    rw [Instr.value, ho]
    cases hfm : i.kind.format with
    | f3 => simp [hfm, Format.fields] at hf
    | f4 => rfl

/-- A bit that no field of the format covers lies in the gap. -/
theorem Format.mem_gap {fm : Format} {k : Nat} (hk : k < 104)
    (h : ∀ f ∈ fm.fields, k < fm.offset f ∨ fm.offset f + f.width ≤ k) : 32 ≤ k ∧ k ≤ fm.gapTop := by
  cases fm <;>
    simp only [Format.fields, Format.offset, Field.width, Format.gapTop, List.forall_mem_cons] at h ⊢ <;> omega

end Sys2Proof

namespace Sys2Proof.Machine

theorem packOr_bc {i : Instr} {b c : Nat} (hf : i.kind.format = .f3) (ho : i.ops = Operands.bc b c) :
    packOr i = some ((i.kind.opcode <<< 99) ||| (b <<< 93) ||| (c <<< 0)) := by
  rw [packOr, hf, ho]
  rfl

theorem packOr_bcd {i : Instr} {b c d : Nat} (hf : i.kind.format = .f4) (ho : i.ops = Operands.bcd b c d) :
    packOr i = some ((i.kind.opcode <<< 99) ||| (b <<< 93) ||| (c <<< 61) ||| (d <<< 0)) := by
  rw [packOr, hf, ho]
  rfl

/-- The packed word of format F3 is the sum of its shifted fields (R127). -/
theorem pack_toNat_bc {i : Instr} {b c : Nat} (h : check i = .ok) (ho : i.ops = Operands.bc b c) :
    (pack i h).toNat = i.kind.opcode * 2 ^ 99 + b * 2 ^ 93 + c := by
  obtain ⟨hf, hb, hc⟩ := (check_bc ho).1 h
  have ha := opcode_le i.kind
  rw [pack_of_packOr i h _ (packOr_bc hf ho), BitVec.toNat_ofNat, or_f3 _ _ _ (by omega) (by omega)]
  omega

/-- The packed word of format F4 is the sum of its shifted fields (R127). -/
theorem pack_toNat_bcd {i : Instr} {b c d : Nat} (h : check i = .ok) (ho : i.ops = Operands.bcd b c d) :
    (pack i h).toNat = i.kind.opcode * 2 ^ 99 + b * 2 ^ 93 + c * 2 ^ 61 + d := by
  obtain ⟨hf, hb, hc, hd⟩ := (check_bcd ho).1 h
  have ha := opcode_le i.kind
  rw [pack_of_packOr i h _ (packOr_bcd hf ho), BitVec.toNat_ofNat,
    or_f4 _ _ _ _ (by omega) (by omega) (by omega)]
  omega

/-- The packed word of format F3 is the one of the layout table R75. -/
theorem pack_bc {i : Instr} {b c : Nat} (h : check i = .ok) (ho : i.ops = Operands.bc b c) :
    pack i h = layoutF3 (.ofNat 5 i.kind.opcode) (.ofNat 6 b) (.ofNat 32 c) := by
  obtain ⟨-, hb, hc⟩ := (check_bc ho).1 h
  have ha := opcode_le i.kind
  refine BitVec.eq_of_toNat_eq ?_
  rw [pack_toNat_bc h ho, layoutF3_toNat]
  simp only [BitVec.toNat_ofNat]
  omega

/-- The packed word of format F4 is the one of the layout table R76. -/
theorem pack_bcd {i : Instr} {b c d : Nat} (h : check i = .ok) (ho : i.ops = Operands.bcd b c d) :
    pack i h = layoutF4 (.ofNat 5 i.kind.opcode) (.ofNat 6 b) (.ofNat 32 c) (.ofNat 32 d) := by
  obtain ⟨-, hb, hc, hd⟩ := (check_bcd ho).1 h
  have ha := opcode_le i.kind
  refine BitVec.eq_of_toNat_eq ?_
  rw [pack_toNat_bcd h ho, layoutF4_toNat]
  simp only [BitVec.toNat_ofNat]
  omega

/-- A packed word holds its kind's opcode and its record's operands in the slots, and nothing in the gap. -/
theorem slots_of_pack (i : Instr) (h : check i = .ok) :
    (pack i h).slice 103 99 = i.kind.opcode ∧ i.kind.format.gap (pack i h) = 0 ∧
      i.ops = i.kind.format.operands (pack i h) := by
  have ha := opcode_le i.kind
  obtain ⟨b, c, ho⟩ | ⟨b, c, d, ho⟩ := ops_of_check_ok h
  · obtain ⟨hf, hb, hc⟩ := (check_bc ho).1 h
    simp only [hf, ho, Format.gap, Format.gapTop, Format.operands, Operands.bc, Operands.mk.injEq, Option.some.injEq,
      and_true, Word.slice_eq_div_mod, pack_toNat_bc h ho]
    omega
  · obtain ⟨hf, hb, hc, hd⟩ := (check_bcd ho).1 h
    simp only [hf, ho, Format.gap, Format.gapTop, Format.operands, Operands.bcd, Operands.mk.injEq, Option.some.injEq,
      Word.slice_eq_div_mod, pack_toNat_bcd h ho]
    omega

/-- A word whose gap is clear is the packed word of the record that stands in its slots. -/
theorem pack_of_slots {i : Instr} {w : Word} (ha : w.slice 103 99 = i.kind.opcode)
    (hgap : i.kind.format.gap w = 0) (ho : i.ops = i.kind.format.operands w) :
    ∃ h : check i = .ok, pack i h = w := by
  have hb := w.slice_lt 98 93
  have hd := w.slice_lt 31 0
  have hw := w.isLt
  cases hf : i.kind.format with
  | f3 =>
    rw [hf] at hgap ho
    have h : check i = .ok := (check_bc ho).2 ⟨hf, by omega, by omega⟩
    refine ⟨h, BitVec.eq_of_toNat_eq ?_⟩
    rw [pack_toNat_bc h ho, ← ha]
    simp only [Format.gap, Format.gapTop, Word.slice_eq_div_mod] at hgap ⊢
    omega
  | f4 =>
    have hc := w.slice_lt 92 61
    rw [hf] at hgap ho
    have h : check i = .ok := (check_bcd ho).2 ⟨hf, by omega, by omega, by omega⟩
    refine ⟨h, BitVec.eq_of_toNat_eq ?_⟩
    rw [pack_toNat_bcd h ho, ← ha]
    simp only [Format.gap, Format.gapTop, Word.slice_eq_div_mod] at hgap ⊢
    omega

end Sys2Proof.Machine
end

section
/-! SUPPORT. What the decoder answers for every word, and the rows of the opcode map (R84) by opcode and gap. -/

namespace Sys2Proof

theorem kindOfOpcode_eq_some_iff (a : Nat) (k : Kind) : kindOfOpcode a = some k ↔ a = k.opcode := by
  constructor
  · intro h
    unfold kindOfOpcode at h
    split_ifs at h <;> cases h <;> assumption
  · rintro rfl
    cases k <;> rfl

/-- A word with no kind's opcode in field A is rejected. -/
theorem decodeWord_of_unassigned {w : Word} (h : kindOfOpcode (w.slice 103 99) = none) :
    decodeWord w = .rejected (.unassignedOpcode (w.slice 103 99)) := by
  simp [decodeWord, h]

/-- A word with a kind's opcode in field A is read by that kind's format, and rejected where the gap is not clear. -/
theorem decodeWord_of_opcode {w : Word} {k : Kind} (h : w.slice 103 99 = k.opcode) :
    decodeWord w = if k.format.gap w = 0 then .record (k.record (k.format.operands w))
      else .rejected (.nonZeroPadding k) := by
  rw [decodeWord, (kindOfOpcode_eq_some_iff _ k).2 h]
  cases k <;> rfl

/-- Exactly what decodes to a record. -/
theorem decodeWord_eq_record_iff (w : Word) (i : Instr) :
    decodeWord w = .record i ↔ w.slice 103 99 = i.kind.opcode ∧ i.kind.format.gap w = 0 ∧
      i.ops = i.kind.format.operands w := by
  constructor
  · intro h
    cases hk : kindOfOpcode (w.slice 103 99) with
    | none => simp [decodeWord_of_unassigned hk] at h
    | some k =>
      have hk : w.slice 103 99 = k.opcode := (kindOfOpcode_eq_some_iff _ k).1 hk
      rw [decodeWord_of_opcode hk] at h
      split_ifs at h with hgap
      cases h
      simp [hk, hgap]
  · rintro ⟨hk, hgap, ho⟩
    rw [decodeWord_of_opcode hk, if_pos hgap, ← ho, Machine.record_kind_ops]

/-- A word decodes to a record exactly when it is that record's packed word (R131). -/
theorem decodeWord_eq_record_iff_pack (w : Word) (i : Instr) :
    decodeWord w = .record i ↔ ∃ h : Machine.check i = .ok, Machine.pack i h = w := by
  rw [decodeWord_eq_record_iff]
  constructor
  · rintro ⟨ha, hgap, ho⟩
    exact Machine.pack_of_slots ha hgap ho
  · rintro ⟨h, rfl⟩
    exact Machine.slots_of_pack i h

/-- A word decodes to some record of a kind exactly when it holds the kind's opcode and its gap is clear. -/
theorem decodeWord_kind_iff (w : Word) (k : Kind) :
    (∃ i, decodeWord w = .record i ∧ i.kind = k) ↔ w.slice 103 99 = k.opcode ∧ k.format.gap w = 0 := by
  constructor
  · rintro ⟨i, hi, rfl⟩
    obtain ⟨ha, hgap, -⟩ := (decodeWord_eq_record_iff w i).1 hi
    exact ⟨ha, hgap⟩
  · rintro ⟨ha, hgap⟩
    exact ⟨k.record (k.format.operands w), by rw [decodeWord_of_opcode ha, if_pos hgap], Machine.kind_record k _⟩

/-- R81's list, kind by kind. -/
theorem Word.produced_iff (w : Word) :
    w.produced = true ↔ ∃ k : Kind, w.slice 103 99 = k.opcode ∧ k.format.gap w = 0 := by
  simp only [Word.produced, Bool.or_eq_true, Bool.and_eq_true, beq_iff_eq]
  constructor
  · rintro (⟨(ha | ha) | ha, hgap⟩ | ⟨ha, hgap⟩)
    exacts [⟨.not, ha, hgap⟩, ⟨.loadConst, ha, hgap⟩, ⟨.writeMem, ha, hgap⟩, ⟨.readMem, ha, hgap⟩]
  · rintro ⟨k, ha, hgap⟩
    cases k with
    | loadConst => exact .inl ⟨.inl (.inr ha), hgap⟩
    | readMem => exact .inr ⟨ha, hgap⟩
    | writeMem => exact .inl ⟨.inr ha, hgap⟩
    | not => exact .inl ⟨.inl (.inl ha), hgap⟩

/-- A word is produced exactly when it decodes. -/
theorem Word.produced_iff_decodes (w : Word) : w.produced = true ↔ ∃ i, decodeWord w = .record i := by
  simp only [Word.produced_iff, ← decodeWord_kind_iff]
  exact ⟨fun ⟨_, i, hi, _⟩ => ⟨i, hi⟩, fun ⟨i, hi⟩ => ⟨_, i, hi, rfl⟩⟩

/-- The row R84 describes: the mask covers field A and the gap, the match is `opcode << 99`. -/
def Kind.row (k : Kind) : OpcodeRow :=
  { kind := k
    pattern := .ofNat 104 (k.opcode <<< 99)
    mask := .ofNat 104 (sliceMask 103 99 ||| sliceMask k.format.gapTop 32) }

/-- The hexadecimal values of the opcode map are those of R84's description. -/
theorem opcodeTable_eq_rows : opcodeTable = [Kind.loadConst, .readMem, .writeMem, .not].map Kind.row := by decide

theorem row_mem_opcodeTable (k : Kind) : k.row ∈ opcodeTable := by
  rw [opcodeTable_eq_rows]
  cases k <;> simp

theorem eq_row_of_mem_opcodeTable {row : OpcodeRow} (h : row ∈ opcodeTable) : row = row.kind.row := by
  rw [opcodeTable_eq_rows, List.mem_map] at h
  obtain ⟨k, -, rfl⟩ := h
  rfl

/-- What a row's mask leaves of a word: field A and the gap, each in its place. -/
theorem Kind.and_row_mask (k : Kind) (w : Word) :
    (w &&& k.row.mask).toNat = w.slice 103 99 * 2 ^ 99 + k.format.gap w * 2 ^ 32 := by
  have hmask : k.row.mask.toNat = sliceMask 103 99 ||| sliceMask k.format.gapTop 32 := by cases k <;> decide
  have hgap := k.format.gap_lt w
  rw [BitVec.toNat_and, hmask, Nat.and_or_distrib_left, Word.and_sliceMask, Word.and_sliceMask,
    ← Nat.shiftLeft_add_eq_or_of_lt, Nat.shiftLeft_eq, Nat.shiftLeft_eq]
  · rfl
  · change k.format.gap w <<< 32 < 2 ^ 99
    rw [Nat.shiftLeft_eq]
    omega

/-- A word belongs to a kind's row exactly when it holds the kind's opcode and its gap is clear. -/
theorem Kind.row_holds_iff (k : Kind) (w : Word) :
    k.row.holds w = true ↔ w.slice 103 99 = k.opcode ∧ k.format.gap w = 0 := by
  have hgap := k.format.gap_lt w
  have hpattern : k.row.pattern.toNat = k.opcode * 2 ^ 99 := by cases k <;> decide
  rw [OpcodeRow.holds, decide_eq_true_eq, ← BitVec.toNat_inj, Kind.and_row_mask, hpattern]
  omega

end Sys2Proof
end

section
/-! PROOFS. The obligations of the family 30_encoding. -/

namespace Sys2Proof.Machine

/-- Settles O4, format by format. -/
theorem wellFormedExactlyWhenCheckPasses : Obligations.WellFormedExactlyWhenCheckPasses :=
  wellFormed_iff_check_ok

/-- Settles O9: the slots hold the record's operands, and a bit outside every slot lies in the clear gap. -/
theorem fieldsStandInTheirSlotsAndOtherBitsAreZero : Obligations.FieldsStandInTheirSlotsAndOtherBitsAreZero := by
  intro i h
  obtain ⟨ha, hgap, ho⟩ := slots_of_pack i h
  refine ⟨fun f hf v hv => Option.some.inj ((Instr.value_eq_slice ha ho hf).symm.trans hv), fun k hk hout => ?_⟩
  obtain ⟨hlo, hhi⟩ := Format.mem_gap hk hout
  exact Word.getLsbD_of_slice_eq_zero hgap hlo hhi

/-- Settles O12: in each format the layout's concatenation and the packer's OR are the same sum. -/
theorem layoutTablesAgreeWithThePacker : Obligations.LayoutTablesAgreeWithThePacker := by
  refine ⟨fun i h => ?_, fun i e h => ?_⟩
  · have hwf : i.wellFormed = true := (wellFormed_iff_check_ok i).2 h
    obtain ⟨b, c, ho⟩ | ⟨b, c, d, ho⟩ := ops_of_check_ok h
    · obtain ⟨hf, -⟩ := (check_bc ho).1 h
      simp [encode, hwf, hf, ho, pack_bc h ho, Operands.bc]
    · obtain ⟨hf, -⟩ := (check_bcd ho).1 h
      simp [encode, hwf, hf, ho, pack_bcd h ho, Operands.bcd]
  · have hwf : ¬ i.wellFormed = true := by simp [wellFormed_iff_check_ok, h]
    simp [encode, hwf]

/-- Settles O15: a word decodes exactly when it is produced, and to the record whose packed word it is. -/
theorem producedWordsAreTheImageOfThePacker : Obligations.ProducedWordsAreTheImageOfThePacker := by
  intro w
  refine ⟨by simp only [Word.produced_iff_decodes, decodeWord_eq_record_iff_pack], ?_⟩
  rw [← Bool.not_eq_true, Word.produced_iff_decodes]
  cases decodeWord w <;> simp

/-- Settles O19: a kind's row and the decoder ask the same of field A and of the gap. -/
theorem matchAndMaskDecideTheKind : Obligations.MatchAndMaskDecideTheKind := by
  intro w k
  rw [decodeWord_kind_iff, ← Kind.row_holds_iff]
  constructor
  · rintro ⟨row, hrow, rfl, hw⟩
    rwa [← eq_row_of_mem_opcodeTable hrow]
  · exact fun hw => ⟨k.row, row_mem_opcodeTable k, rfl, hw⟩

end Sys2Proof.Machine
end

section
/-! SUPPORT. The check by its two parts: the shape check alone decides a misshaped record, and the validator reads the
fields in their order, past field A, which no record overflows (R103, R107). -/

namespace Sys2Proof.Machine

/-! One field (R102). -/

theorem overflows_iff_two_pow_le (f : Field) (v : Nat) : overflows f v = true ↔ 2 ^ f.width ≤ v := by
  rw [overflows_iff, Field.max]
  have hpos : 0 < 2 ^ f.width := by positivity
  omega

/-! The shape check first (R110). -/

theorem shapeOk_iff (i : Instr) : shapeOk i = true ↔ i.present = i.kind.shape := by simp [shapeOk]

theorem check_of_shapeOk {i : Instr} (h : shapeOk i = true) : check i = validate i := by simp [check, h]

theorem check_of_misshaped {i : Instr} (h : i.present ≠ i.kind.shape) :
    check i = .err (.malformedRecord i.kind i.present) := by
  rw [check, if_neg (mt (shapeOk_iff i).1 h)]

/-! The range check, field by field (R103). -/

theorem validateFields_cons {i : Instr} {f : Field} {v : Nat} (h : i.value f = some v) (fs : List Field) :
    validateFields i (f :: fs) = if f.max < v then .err (.fieldOverflow f v f.max) else validateFields i fs := by
  simp [validateFields, h]

/-- No record overflows field A: every opcode fits its 5 bits. -/
theorem validateFields_cons_a (i : Instr) (fs : List Field) :
    validateFields i (.a :: fs) = validateFields i fs := by
  have hle : i.kind.opcode ≤ 15 := opcode_le i.kind
  rw [validateFields_cons rfl, if_neg (by rw [max_a]; omega)]

theorem validate_f3 {i : Instr} {b c : Nat} (hf : i.kind.format = .f3) (hb : i.value .b = some b)
    (hc : i.value .c = some c) :
    validate i = if 63 < b then .err (.fieldOverflow .b b 63)
      else if 4294967295 < c then .err (.fieldOverflow .c c 4294967295) else .ok := by
  rw [validate, hf, Format.fields, validateFields_cons_a, validateFields_cons hb, validateFields_cons hc,
    max_b, max_c]
  rfl

theorem validate_f4 {i : Instr} {b c d : Nat} (hf : i.kind.format = .f4) (hb : i.value .b = some b)
    (hc : i.value .c = some c) (hd : i.value .d = some d) :
    validate i = if 63 < b then .err (.fieldOverflow .b b 63)
      else if 4294967295 < c then .err (.fieldOverflow .c c 4294967295)
      else if 4294967295 < d then .err (.fieldOverflow .d d 4294967295) else .ok := by
  rw [validate, hf, Format.fields, validateFields_cons_a, validateFields_cons hb, validateFields_cons hc,
    validateFields_cons hd, max_b, max_c, max_d]
  rfl

/-- What a failing validator reports on a record of its kind's shape: a field that overflows, with its whole value. -/
theorem validate_err {i : Instr} (hs : shapeOk i = true) (h : validate i ≠ .ok) :
    ∃ f v, validate i = .err (.fieldOverflow f v f.max) ∧ i.value f = some v ∧ f.max < v := by
  rw [← check_of_shapeOk hs] at h ⊢
  obtain ⟨e, he⟩ := (check_cases i).resolve_left h
  obtain ⟨-, hne⟩ | ⟨f, v, rfl, -, -, -, hv, hlt⟩ := check_err i e he
  · exact absurd ((shapeOk_iff i).1 hs) hne
  · exact ⟨f, v, he, hv, hlt⟩

end Sys2Proof.Machine
end

section
/-! PROOFS. The obligations of the family 40_validate. -/

namespace Sys2Proof.Machine

/-- Settles O1: Ok is that no field overflows, so a value of 2^width or more leaves only an error to report. -/
theorem validatorAcceptsExactlyTheLegalRange : Obligations.ValidatorAcceptsExactlyTheLegalRange := by
  refine ⟨⟨max_a, max_b, max_c, max_d, overflows_iff⟩, fun i hs => ?_⟩
  have hok : validate i = .ok ↔ ∀ f ∈ i.kind.format.fields, ∀ v, i.value f = some v → v ≤ f.max :=
    validateFields_ok i i.kind.format.fields
  refine ⟨hok, fun f hf v hv hle => validate_err hs fun h => ?_⟩
  have hlt : f.max < v := (overflows_iff f v).1 ((overflows_iff_two_pow_le f v).2 hle)
  exact absurd (hok.1 h f hf v hv) (Nat.not_le.2 hlt)

/-- Settles O2: the shape check decides a misshaped record, the validator's order every other. -/
theorem checkVerdictForEveryRecord : Obligations.CheckVerdictForEveryRecord := by
  refine ⟨fun k o hne => ?_, fun k b c hf => ?_, fun b c d => ?_⟩
  · rw [check_of_misshaped (by simpa [Instr.present] using hne)]
    simp [Instr.present]
  · have hs : shapeOk (k.record (Operands.bc b c)) = true := by
      cases k with
      | readMem => cases hf
      | loadConst | writeMem | not => rfl
    rw [check_of_shapeOk hs]
    exact validate_f3 (by simpa using hf) (by simp [Instr.value, Operands.bc]) (by simp [Instr.value, Operands.bc])
  · rw [check_of_shapeOk rfl]
    exact validate_f4 rfl rfl rfl rfl

/-- Settles O3: a natural number reaches 2^width exactly when it has a bit there or above, and below it is its own low
bits. -/
theorem overflowIsAHighBit : Obligations.OverflowIsAHighBit := by
  intro f v
  rw [← Bool.not_eq_true, overflows_iff_two_pow_le, Nat.not_le]
  refine ⟨⟨Nat.exists_ge_and_testBit_of_ge_two_pow, fun ⟨k, hk, hbit⟩ => ?_⟩, Nat.mod_eq_of_lt⟩
  exact (Nat.pow_le_pow_right (by decide) hk).trans (Nat.ge_two_pow_of_testBit hbit)

end Sys2Proof.Machine
end

section
/-! SUPPORT. The serializer (R53, R140): the bytes of a word as numbers, and `deserialize` as its inverse on both
sides. -/

namespace Sys2Proof

theorem Word.byte_toNat (w : Word) (k : Nat) : (w.byte k).toNat = w.toNat / 2 ^ (96 - 8 * k) % 256 := by
  simp [Word.byte, Nat.shiftRight_eq_div_pow]

/-- The first byte holds field A above the upper half of field B. -/
theorem Word.byte_zero_toNat (w : Word) : (w.byte 0).toNat = 8 * w.slice 103 99 + w.slice 98 93 / 8 := by
  simp only [Word.byte_toNat, Word.slice_eq_div_mod]
  omega

/-- The bytes that lie within the gap of F4, and the part of byte 5 that does. -/
theorem Word.bytes_of_clear_gap {w : Word} (h : w.slice 60 32 = 0) :
    w.byte 6 = 0#8 ∧ w.byte 7 = 0#8 ∧ w.byte 8 = 0#8 ∧ (w.byte 5).toNat % 32 = 0 := by
  simp only [← BitVec.toNat_inj, BitVec.toNat_zero, Word.byte_toNat, Word.slice_eq_div_mod] at h ⊢
  omega

theorem serialize_map_toNat (w : Word) :
    (serialize w).map BitVec.toNat = (List.range 13).map fun k => w.toNat / 2 ^ (96 - 8 * k) % 256 := by
  rw [serialize, List.map_map]
  exact List.map_congr_left fun k _ => w.byte_toNat k

theorem bigEndian_append_singleton (bs : List Byte) (b : Byte) :
    bigEndian (bs ++ [b]) = bigEndian bs * 256 + b.toNat := by
  simp [bigEndian]

/-- The first n bytes of a word are its upper 8n bits. -/
theorem bigEndian_map_byte (w : Word) {n : Nat} (hn : n ≤ 13) :
    bigEndian ((List.range n).map w.byte) = w.toNat / 2 ^ (104 - 8 * n) := by
  induction n with
  | zero => exact (Nat.div_eq_of_lt w.isLt).symm
  | succ n ih =>
    have hpow : 2 ^ (104 - 8 * n) = 2 ^ (96 - 8 * n) * 256 := by
      rw [show 104 - 8 * n = 96 - 8 * n + 8 by omega, pow_add]
      rfl
    rw [List.range_succ, List.map_append, List.map_singleton, bigEndian_append_singleton, ih (by omega), hpow,
      Word.byte_toNat, ← Nat.div_div_eq_div_mul, Nat.div_add_mod', show 104 - 8 * (n + 1) = 96 - 8 * n by omega]

theorem deserialize_serialize (w : Word) : deserialize (serialize w) = w := by
  rw [deserialize, serialize, bigEndian_map_byte w le_rfl]
  simp

theorem serialize_injective : Function.Injective serialize :=
  Function.LeftInverse.injective deserialize_serialize

/-- A big-endian byte sequence is its reverse read as digits in base 256. -/
theorem bigEndian_eq_ofDigits (bs : List Byte) :
    bigEndian bs = Nat.ofDigits 256 (bs.reverse.map BitVec.toNat) := by
  induction bs using List.reverseRecOn with
  | nil => rfl
  | append_singleton bs b ih =>
    rw [bigEndian_append_singleton, ih, List.reverse_append]
    simp only [List.reverse_singleton, List.singleton_append, List.map_cons, Nat.ofDigits_cons]
    omega

theorem byte_digit_lt {bs : List Byte} : ∀ x ∈ bs.reverse.map BitVec.toNat, x < 256 := by
  intro x hx
  obtain ⟨b, -, rfl⟩ := List.mem_map.1 hx
  exact b.isLt

theorem bigEndian_lt (bs : List Byte) : bigEndian bs < 256 ^ bs.length := by
  rw [bigEndian_eq_ofDigits]
  simpa using Nat.ofDigits_lt_base_pow_length (by decide) (byte_digit_lt (bs := bs))

theorem bigEndian_inj {bs cs : List Byte} (hlen : bs.length = cs.length) (h : bigEndian bs = bigEndian cs) :
    bs = cs := by
  rw [bigEndian_eq_ofDigits, bigEndian_eq_ofDigits] at h
  have hdigits := Nat.ofDigits_inj_of_len_eq (by decide) (by simpa using hlen) byte_digit_lt byte_digit_lt h
  exact List.reverse_injective (List.map_injective_iff.2 (fun _ _ => BitVec.eq_of_toNat_eq) hdigits)

/-- On 13 bytes the serializer undoes `deserialize`: both sequences have the same big-endian value. -/
theorem serialize_deserialize {bs : List Byte} (h : bs.length = 13) : serialize (deserialize bs) = bs := by
  have hlt : bigEndian bs < 2 ^ 104 := by simpa [h] using bigEndian_lt bs
  refine bigEndian_inj (by simp [h]) ?_
  rw [serialize, bigEndian_map_byte _ le_rfl, deserialize, BitVec.toNat_ofNat, Nat.mod_eq_of_lt hlt]
  simp

end Sys2Proof
end

section
/-! SUPPORT. The decoder on byte sequences: what decodes is exactly a packed word's bytes and what follows them. -/

namespace Sys2Proof

theorem decode_serialize_append {w : Word} {i : Instr} (h : decodeWord w = .record i) (rest : List Byte) :
    decode (serialize w ++ rest) = .record i rest := by
  have hlen : ¬ (serialize w ++ rest).length < 13 := by simp
  rw [decode, if_neg hlen, List.take_left' (Machine.serialize_length w), List.drop_left' (Machine.serialize_length w),
    deserialize_serialize, h]

/-- Bytes that decode begin with the serialization of a word that decodes. -/
theorem serialize_append_of_decode {bs rest : List Byte} {i : Instr} (h : decode bs = .record i rest) :
    ∃ w, decodeWord w = .record i ∧ bs = serialize w ++ rest := by
  unfold decode at h
  split at h
  · cases h
  next hlen =>
    split at h
    next j hj =>
      cases h
      refine ⟨_, hj, ?_⟩
      rw [serialize_deserialize (by rw [List.length_take]; omega), List.take_append_drop]
    · cases h

/-- Bytes decode to a record exactly when they are its packed word, serialized, and the rest (R131). -/
theorem decode_eq_record_iff (bs rest : List Byte) (i : Instr) :
    decode bs = .record i rest ↔ ∃ h : Machine.check i = .ok, bs = serialize (Machine.pack i h) ++ rest := by
  constructor
  · intro hbs
    obtain ⟨w, hw, rfl⟩ := serialize_append_of_decode hbs
    obtain ⟨h, rfl⟩ := (decodeWord_eq_record_iff_pack w i).1 hw
    exact ⟨h, rfl⟩
  · rintro ⟨h, rfl⟩
    exact decode_serialize_append ((decodeWord_eq_record_iff_pack _ i).2 ⟨h, rfl⟩) rest

end Sys2Proof
end

section
/-! SUPPORT. The packer: its word as the natural OR of R120 (R127) and as multiplexers (R125), a record in range and
one out of range, format by format (R121 to R124), and the accepted record in a state that is ready (R144). -/

namespace Sys2Proof.Machine

/-! The word of a record that passes the check. -/

theorem pack_toNat_or_bc {i : Instr} {b c : Nat} (h : check i = .ok) (ho : i.ops = Operands.bc b c) :
    (pack i h).toNat = (i.kind.opcode <<< 99) ||| (b <<< 93) ||| c := by
  obtain ⟨-, hb, hc⟩ := (check_bc ho).1 h
  rw [pack_toNat_bc h ho, ← or_f3 _ _ _ (by omega) (by omega), Nat.shiftLeft_zero]

theorem pack_toNat_or_bcd {i : Instr} {b c d : Nat} (h : check i = .ok) (ho : i.ops = Operands.bcd b c d) :
    (pack i h).toNat = (i.kind.opcode <<< 99) ||| (b <<< 93) ||| (c <<< 61) ||| d := by
  obtain ⟨-, hb, hc, hd⟩ := (check_bcd ho).1 h
  rw [pack_toNat_bcd h ho, ← or_f4 _ _ _ _ (by omega) (by omega) (by omega), Nat.shiftLeft_zero]

/-- The 104-bit reduction of `pack` loses nothing (R127). -/
theorem packOr_eq_toNat_pack (i : Instr) (h : check i = .ok) : packOr i = some (pack i h).toNat := by
  obtain ⟨b, c, ho⟩ | ⟨b, c, d, ho⟩ := ops_of_check_ok h
  · rw [packOr_bc ((check_bc ho).1 h).1 ho, pack_toNat_or_bc h ho, Nat.shiftLeft_zero]
  · rw [packOr_bcd ((check_bcd ho).1 h).1 ho, pack_toNat_or_bcd h ho, Nat.shiftLeft_zero]

/-- With `is_f4` at 0 the multiplexers lay out format F3, whatever stands on the input d. -/
theorem packMux_f3 {k : Kind} (hf : k.format = .f3) (b : BitVec 6) (c d : BitVec 32) :
    packMux k b c d = layoutF3 (.ofNat 5 k.opcode) b c := by
  have hk : k ≠ .readMem := by rintro rfl; cases hf
  refine BitVec.eq_of_toNat_eq ?_
  rw [layoutF3_toNat]
  simp only [packMux, if_neg hk, toNat_append_eq_add, BitVec.toNat_ofNat]
  omega

theorem format_eq_f4_iff (k : Kind) : k.format = .f4 ↔ k = .readMem := by cases k <;> decide

/-- With `is_f4` at 1 the multiplexers lay out format F4. -/
theorem packMux_f4 {k : Kind} (hf : k.format = .f4) (b : BitVec 6) (c d : BitVec 32) :
    packMux k b c d = layoutF4 (.ofNat 5 k.opcode) b c d := by
  obtain rfl := (format_eq_f4_iff k).1 hf
  rfl

/-! The record in range. -/

/-- A record of format F3 in range: its word and the slots of the word. -/
theorem word_of_f3 {i : Instr} {b c : Nat} (hf : i.kind.format = .f3) (ho : i.ops = Operands.bc b c) (hb : b ≤ 63)
    (hc : c ≤ 4294967295) :
    ∃ h : check i = .ok, (pack i h).toNat = (i.kind.opcode <<< 99) ||| (b <<< 93) ||| c ∧
      (pack i h).slice 103 99 = i.kind.opcode ∧ (pack i h).slice 98 93 = b ∧
      (pack i h).slice 92 32 = 0 ∧ (pack i h).slice 31 0 = c := by
  have h : check i = .ok := (check_bc ho).2 ⟨hf, hb, hc⟩
  obtain ⟨ha, hgap, hops⟩ := slots_of_pack i h
  rw [hf] at hgap hops
  cases ho.symm.trans hops
  exact ⟨h, pack_toNat_or_bc h ho, ha, rfl, hgap, rfl⟩

/-- A record of format F4 in range: its word and the slots of the word. -/
theorem word_of_f4 {i : Instr} {b c d : Nat} (hf : i.kind.format = .f4) (ho : i.ops = Operands.bcd b c d)
    (hb : b ≤ 63) (hc : c ≤ 4294967295) (hd : d ≤ 4294967295) :
    ∃ h : check i = .ok, (pack i h).toNat = (i.kind.opcode <<< 99) ||| (b <<< 93) ||| (c <<< 61) ||| d ∧
      (pack i h).slice 103 99 = i.kind.opcode ∧ (pack i h).slice 98 93 = b ∧ (pack i h).slice 92 61 = c ∧
      (pack i h).slice 60 32 = 0 ∧ (pack i h).slice 31 0 = d := by
  have h : check i = .ok := (check_bcd ho).2 ⟨hf, hb, hc, hd⟩
  obtain ⟨ha, hgap, hops⟩ := slots_of_pack i h
  rw [hf] at hgap hops
  cases ho.symm.trans hops
  exact ⟨h, pack_toNat_or_bcd h ho, ha, rfl, rfl, hgap, rfl⟩

/-- No kind's first byte is above 7F: field A is at most 15. -/
theorem byte_zero_of_pack_le (i : Instr) (h : check i = .ok) : ((pack i h).byte 0).toNat ≤ 0x7F := by
  obtain ⟨ha, -⟩ := slots_of_pack i h
  have hop := opcode_le i.kind
  have hb := (pack i h).slice_lt 98 93
  rw [Word.byte_zero_toNat, ha]
  omega

/-! The record out of range. -/

theorem check_err_of_shapeOk {i : Instr} (hs : shapeOk i = true) (h : check i ≠ .ok) :
    ∃ f v, check i = .err (.fieldOverflow f v f.max) ∧ i.value f = some v ∧ f.max < v := by
  rw [check_of_shapeOk hs] at h ⊢
  exact validate_err hs h

theorem check_bc_overflow {i : Instr} {b c : Nat} (hs : shapeOk i = true) (ho : i.ops = Operands.bc b c)
    (hv : 63 < b ∨ 4294967295 < c) :
    ∃ f v, check i = .err (.fieldOverflow f v f.max) ∧ i.value f = some v ∧ f.max < v := by
  refine check_err_of_shapeOk hs fun h => ?_
  obtain ⟨-, hb, hc⟩ := (check_bc ho).1 h
  omega

theorem check_bcd_overflow {i : Instr} {b c d : Nat} (hs : shapeOk i = true) (ho : i.ops = Operands.bcd b c d)
    (hv : 63 < b ∨ 4294967295 < c ∨ 4294967295 < d) :
    ∃ f v, check i = .err (.fieldOverflow f v f.max) ∧ i.value f = some v ∧ f.max < v := by
  refine check_err_of_shapeOk hs fun h => ?_
  obtain ⟨-, hb, hc, hd⟩ := (check_bcd ho).1 h
  omega

/-! The accepted record. -/

theorem exec_accept {i : Instr} {s : State} (hs : s.ready) (h : check i = .ok) :
    exec i s = .next (s.accept (pack i h)) := by
  obtain ⟨hp, hph, hroom⟩ := hs
  rw [exec_eq_push, push_accept i s (presentable_of_check_ok _ i hp h) hph hroom h]

/-- An accepted record whose word is known as a number: the word is written at 13 * idx and idx advances (R144). -/
theorem exec_accept_of_toNat {i : Instr} {s : State} {n : Nat} (hs : s.ready) (h : check i = .ok)
    (hn : (pack i h).toNat = n) :
    exec i s = .next { s with
      obuf := Memory.writeWord s.obuf (13 * s.idx) (BitVec.ofNat 104 n)
      idx := s.idx + 1 } := by
  rw [exec_accept hs h, ← hn, BitVec.ofNat_toNat, BitVec.setWidth_eq]
  rfl

theorem exec_f3 {i : Instr} {s : State} {b c : Nat} (hs : s.ready) (hf : i.kind.format = .f3)
    (ho : i.ops = Operands.bc b c) (hb : b ≤ 63) (hc : c ≤ 4294967295) :
    exec i s = .next { s with
      obuf := Memory.writeWord s.obuf (13 * s.idx)
        (BitVec.ofNat 104 ((i.kind.opcode <<< 99) ||| (b <<< 93) ||| c))
      idx := s.idx + 1 } := by
  obtain ⟨h, hn, -⟩ := word_of_f3 hf ho hb hc
  exact exec_accept_of_toNat hs h hn

end Sys2Proof.Machine
end

section
/-! PROOFS. The obligations of the family 41_pack. -/

namespace Sys2Proof.Machine

/-- Settles O17: a well-formed record's layout is its packed word, whose bytes decode to the record. -/
theorem decodeOfEncodeIsTheRecord : Obligations.DecodeOfEncodeIsTheRecord := by
  intro i rest hwf
  have h : check i = .ok := (wellFormed_iff_check_ok i).1 hwf
  exact ⟨pack i h, layoutTablesAgreeWithThePacker.1 i h, (decode_eq_record_iff _ rest i).2 ⟨h, rfl⟩⟩

/-- Settles O18: only a packed word's bytes decode. -/
theorem decodedBytesAreTheEncoding : Obligations.DecodedBytesAreTheEncoding :=
  fun bs rest i => (decode_eq_record_iff bs rest i).1

/-- Settles O14: equal bytes are equal words, and a word decodes to one record. -/
theorem packingIsInjective : Obligations.PackingIsInjective := by
  intro i j hi hj hbytes
  have hi' : decodeWord (pack i hi) = .record i := (decodeWord_eq_record_iff_pack _ i).2 ⟨hi, rfl⟩
  have hj' : decodeWord (pack j hj) = .record j := (decodeWord_eq_record_iff_pack _ j).2 ⟨hj, rfl⟩
  rw [serialize_injective hbytes, hj'] at hi'
  cases hi'
  rfl

/-- Settles O10: the OR of the shifted fields is their sum, which fits 104 bits. -/
theorem packingLosesNothing : Obligations.PackingLosesNothing :=
  fun i h => ⟨packOr_eq_toNat_pack i h, fun _ _ => pack_toNat_bc h, fun _ _ _ => pack_toNat_bcd h⟩

/-- Settles O11: the multiplexers and the packer compute the layout of the record's format. -/
theorem multiplexersComputeThePackedWord : Obligations.MultiplexersComputeThePackedWord := by
  intro i h b c d hb hc hd
  obtain ⟨b', c', ho⟩ | ⟨b', c', d', ho⟩ := ops_of_check_ok h
  · obtain ⟨hf, -⟩ := (check_bc ho).1 h
    rw [ho] at hb hc
    cases hb
    cases hc
    rw [packMux_f3 hf, pack_bc h ho]
  · obtain ⟨hf, -⟩ := (check_bcd ho).1 h
    have hd : i.ops.d = some d := hd ((format_eq_f4_iff _).1 hf)
    rw [ho] at hb hc hd
    cases hb
    cases hc
    cases hd
    rw [packMux_f4 hf, pack_bcd h ho]

/-- Settles O13: each byte is a quotient of the sum of the shifted fields. -/
theorem bytesOfTheWordByField : Obligations.BytesOfTheWordByField := by
  refine ⟨fun i h b c ho => ?_, fun i h b c d ho => ?_⟩
  · obtain ⟨-, hb, hc⟩ := (check_bc ho).1 h
    have ha := opcode_le i.kind
    rw [serialize_map_toNat, pack_toNat_bc h ho]
    simp only [List.range, List.range.loop, List.map_cons, List.map_nil, List.cons.injEq, and_true]
    omega
  · obtain ⟨-, hb, hc, hd⟩ := (check_bcd ho).1 h
    have ha := opcode_le i.kind
    rw [serialize_map_toNat, pack_toNat_bcd h ho]
    simp only [List.range, List.range.loop, List.map_cons, List.map_nil, List.cons.injEq, and_true]
    omega

/-- Settles O5: the F3 word of opcode 4. -/
theorem loadConstIsEncodedAsSpecified : Obligations.LoadConstIsEncodedAsSpecified := by
  refine ⟨fun b c hb hc => word_of_f3 rfl rfl hb hc, fun o ho => check_of_misshaped ho,
    fun b c hv => check_bc_overflow rfl rfl hv, ?_, ?_, ?_⟩ <;> decide

/-- Settles O8: the F3 word of opcode 2, with the operands themselves in the slots. -/
theorem notIsEncodedAsSpecified : Obligations.NotIsEncodedAsSpecified := by
  refine ⟨fun b c hb hc => word_of_f3 rfl rfl hb hc, fun o ho => check_of_misshaped ho,
    fun b c hv => check_bc_overflow rfl rfl hv, ?_, ?_, ?_⟩ <;> decide

/-- Settles O7: the F3 word of opcode 15, the largest opcode, so no first byte is above that of B = 63. -/
theorem writeMemIsEncodedAsSpecified : Obligations.WriteMemIsEncodedAsSpecified := by
  refine ⟨fun b c hb hc => ?_, byte_zero_of_pack_le, fun o ho => check_of_misshaped ho,
    fun b c hv => check_bc_overflow rfl rfl hv, ?_, ?_, ?_, ?_⟩
  · obtain ⟨h, hn, hA, hB, hgap, hC⟩ := word_of_f3 (i := .writeMem (Operands.bc b c)) rfl rfl hb hc
    refine ⟨h, hn, hA, hB, hgap, hC, fun hle => ?_⟩
    rw [Word.byte_zero_toNat, hA, hB]
    change 0x7C ≤ 8 * 15 + b / 8
    omega
  all_goals decide

/-- Settles O6: the F4 word of opcode 6, whose gap covers bytes 6 to 8 and the low bits of byte 5. -/
theorem readMemIsEncodedAsSpecified : Obligations.ReadMemIsEncodedAsSpecified := by
  refine ⟨fun k => by cases k <;> decide, fun b c d hb hc hd => ?_, fun o ho => check_of_misshaped ho,
    fun b c d hv => check_bcd_overflow rfl rfl hv, ?_, ?_, ?_, ?_, ?_, ?_⟩
  · obtain ⟨h, hn, hA, hB, hC, hgap, hD⟩ := word_of_f4 (i := .readMem (Operands.bcd b c d)) rfl rfl hb hc hd
    exact ⟨h, hn, hA, hB, hC, hgap, hD, Word.bytes_of_clear_gap hgap⟩
  all_goals decide

/-- Settles O21: each of the three kinds is one accepted record of format F3. -/
theorem formatF3RecordsComplete : Obligations.FormatF3RecordsComplete :=
  fun _ _ _ hs hb hc => ⟨exec_f3 hs rfl rfl hb hc, exec_f3 hs rfl rfl hb hc, exec_f3 hs rfl rfl hb hc⟩

/-- Settles O22: ReadMem is one accepted record of format F4. -/
theorem readMemCompletes : Obligations.ReadMemCompletes := by
  intro s b c d hs hb hc hd
  obtain ⟨h, hn, -⟩ := word_of_f4 (i := .readMem (Operands.bcd b c d)) rfl rfl hb hc hd
  exact exec_accept_of_toNat hs h hn

end Sys2Proof.Machine
end

section
/-! SUPPORT. The serializer (R140): the bytes of a word as its slices and as its digits by place. -/

namespace Sys2Proof.Machine

/-- The first n bytes, weighted by their places, are the word with its lower bits cleared. -/
theorem sum_bytes (w : Word) {n : Nat} (hn : n ≤ 13) :
    ∑ k ∈ Finset.range n, (w.byte k).toNat * 2 ^ (96 - 8 * k) =
      w.toNat / 2 ^ (104 - 8 * n) * 2 ^ (104 - 8 * n) := by
  induction n with
  | zero => simpa using w.isLt
  | succ n ih =>
    have hpow : 2 ^ (104 - 8 * n) = 2 ^ (96 - 8 * n) * 256 := by
      rw [show 104 - 8 * n = 96 - 8 * n + 8 by omega, pow_add]
      rfl
    rw [Finset.sum_range_succ, ih (by omega), Word.byte_toNat, show 104 - 8 * (n + 1) = 96 - 8 * n by omega, hpow,
      ← Nat.div_div_eq_div_mul, mul_comm (2 ^ (96 - 8 * n)) 256, ← mul_assoc, ← add_mul, Nat.div_add_mod']

theorem serialize_getElem?_toNat (w : Word) {k : Nat} (hk : k < 13) :
    ((serialize w)[k]?).map BitVec.toNat = some (w.byte k).toNat := by
  simp [serialize, hk]

/-- Byte k is the slice of 8 bits that R140 names. -/
theorem byte_toNat_eq_slice (w : Word) {k : Nat} (hk : k < 13) :
    (w.byte k).toNat = w.slice (103 - 8 * k) (96 - 8 * k) := by
  rw [Word.byte_toNat, Word.slice_eq_div_mod, show 103 - 8 * k - (96 - 8 * k) + 1 = 8 by omega]
  rfl

/-- No kind's first byte is below 10 hexadecimal: field A is at least 2. -/
theorem le_byte_zero_of_pack (i : Instr) (h : check i = .ok) : 0x10 ≤ ((pack i h).byte 0).toNat := by
  have hop : 2 ≤ i.kind.opcode := by cases i.kind <;> decide
  rw [Word.byte_zero_toNat, (slots_of_pack i h).1]
  omega

end Sys2Proof.Machine
end

section
/-! SUPPORT. The output buffer as a stream (R27, R51): what its bytes are at each offset, after an accepted word and
under the invariant. -/

namespace Sys2Proof.Machine

/-- Where the offsets are consecutive from `a` on, the bytes of the buffer are what the offsets read. -/
theorem Memory.bytes_getElem?_eq_read {m : Memory} {a n : Nat} (h : m.map (·.1) = List.range' a n) (k : Nat) :
    (Memory.bytes m)[k]? = Memory.read m (a + k) := by
  induction m generalizing a n k with
  | nil => rfl
  | cons c m ih =>
    obtain ⟨n, rfl⟩ : ∃ l, n = l + 1 := ⟨m.length, by simpa using (congrArg List.length h).symm⟩
    obtain ⟨hc, hm⟩ := List.cons.inj (h.trans List.range'_succ)
    change c.1 = a at hc
    cases k with
    | zero => simp [Memory.bytes, hc]
    | succ k =>
      have hne : c.1 ≠ a + (k + 1) := by omega
      rw [Memory.read_cons, if_neg hne, show a + (k + 1) = a + 1 + k by omega, ← ih hm k]
      rfl

/-- The 13 offsets of a written word read its bytes (R53). -/
theorem Memory.read_writeWord_inside (m : Memory) (a : Nat) (w : Word) {k : Nat} (hk : k < 13) :
    Memory.read (Memory.writeWord m a w) (a + k) = (serialize w)[k]? := by
  have hk' : k < (serialize w).length := by simpa using hk
  rw [Memory.writeWord, Memory.read_writeBytes_inside m a k _ hk', List.getElem?_eq_getElem hk']

/-- An offset outside a written word reads as before. -/
theorem Memory.read_writeWord_outside (m : Memory) {a b : Nat} (w : Word) (h : b < a ∨ a + 13 ≤ b) :
    Memory.read (Memory.writeWord m a w) b = Memory.read m b :=
  Memory.read_writeBytes_outside m a b _ (by simpa using h)

/-- The 13 offsets from the store address on read an accepted word's bytes (R144). -/
theorem State.read_accept_inside (s : State) (w : Word) {k : Nat} (hk : k < 13) :
    Memory.read (s.accept w).obuf (storeAddress s + k) = (serialize w)[k]? := by
  rw [State.accept_obuf, Memory.read_writeWord_inside _ _ _ hk]

/-- Every other offset reads as before (R144). -/
theorem State.read_accept_outside (s : State) (w : Word) {a : Nat}
    (h : a < storeAddress s ∨ storeAddress s + 13 ≤ a) :
    Memory.read (s.accept w).obuf a = Memory.read s.obuf a := by
  rw [State.accept_obuf, Memory.read_writeWord_outside _ _ h]

/-- A word accepted where every offset in use is below 13 * idx is appended to the stream (R144). -/
theorem State.accept_bytes {s : State} (h : ∀ c ∈ s.obuf, c.1 < 13 * s.idx) (w : Word) :
    Memory.bytes (s.accept w).obuf = Memory.bytes s.obuf ++ serialize w := by
  rw [State.accept_obuf, Memory.writeWord, storeAddress, (Memory.writeBytes_append s.obuf _ (serialize w) h).2]

/-- Accepting a word keeps every offset in use below 13 * idx. -/
theorem State.accept_offset_lt {s : State} (h : ∀ c ∈ s.obuf, c.1 < 13 * s.idx) (w : Word) :
    ∀ c ∈ (s.accept w).obuf, c.1 < 13 * (s.accept w).idx := by
  intro c hc
  have hoff : c.1 ∈ (s.accept w).obuf.map (·.1) := List.mem_map_of_mem hc
  rw [State.accept_obuf, Memory.writeWord, storeAddress, (Memory.writeBytes_append s.obuf _ (serialize w) h).1,
    List.mem_append, serialize_length, List.mem_range'_1] at hoff
  rw [State.accept_idx]
  rcases hoff with hold | hnew
  · obtain ⟨d, hd, hdc⟩ := List.mem_map.1 hold
    have hlt := h d hd
    omega
  · omega

/-- In COLLECT the offsets in use are the first 13 * idx (R28). -/
theorem State.Inv.offsets {s : State} (h : s.Inv) (hph : s.phase = .collect) :
    s.obuf.map (·.1) = List.range' 0 (13 * s.idx) := by
  obtain ⟨-, hoff, -⟩ := h.collecting hph
  rw [hoff, List.range_eq_range']

/-- In COLLECT the stream has 13 * idx bytes (R28). -/
theorem State.Inv.bytes_length {s : State} (h : s.Inv) (hph : s.phase = .collect) :
    (Memory.bytes s.obuf).length = 13 * s.idx := by
  simpa [Memory.bytes] using congrArg List.length (h.offsets hph)

end Sys2Proof.Machine
end

section
/-! SUPPORT. The result of `assemble` (R150 to R153, R167): the bytes of all records in order where every record passes
the check, and otherwise the report of the first that fails. -/

namespace Sys2Proof.Machine

/-- The bytes of one record's result; none where it is an error. -/
def Encoded.bytes : Encoded → List Byte
  | .ok bs => bs
  | .err _ => []

/-- The bytes of the records that pass the check, in order. -/
def programBytes (is : List Instr) : List Byte := is.flatMap fun i => (encodeRecord i).bytes

@[simp] theorem programBytes_nil : programBytes [] = [] := rfl

theorem programBytes_append (is js : List Instr) : programBytes (is ++ js) = programBytes is ++ programBytes js :=
  List.flatMap_append

theorem programBytes_cons {i : Instr} (h : check i = .ok) (is : List Instr) :
    programBytes (i :: is) = serialize (pack i h) ++ programBytes is := by
  simp [programBytes, encodeRecord_ok i h, Encoded.bytes]

theorem programBytes_length {is : List Instr} (h : ∀ i ∈ is, check i = .ok) :
    (programBytes is).length = 13 * is.length := by
  induction is with
  | nil => rfl
  | cons i is ih =>
    obtain ⟨hi, his⟩ := List.forall_mem_cons.1 h
    rw [programBytes_cons hi, List.length_append, serialize_length, ih his, List.length_cons]
    omega

/-- Block k of the bytes is the word of record k alone (R153). -/
theorem programBytes_block {is : List Instr} (h : ∀ i ∈ is, check i = .ok) {k : Nat} (hk : k < is.length) :
    ((programBytes is).drop (13 * k)).take 13 = serialize (pack is[k] (h _ (List.getElem_mem hk))) := by
  have hsplit : programBytes is = programBytes (is.take k) ++
      (serialize (pack is[k] (h _ (List.getElem_mem hk))) ++ programBytes (is.drop (k + 1))) := by
    rw [← programBytes_cons, ← programBytes_append, List.getElem_cons_drop, List.take_append_drop]
  have hbefore : (programBytes (is.take k)).length = 13 * k := by
    rw [programBytes_length fun i hi => h i (List.mem_of_mem_take hi), List.length_take_of_le hk.le]
  rw [hsplit, List.drop_left' hbefore, List.take_left' (serialize_length _)]

/-! The loop by its first record. -/

theorem assembleFrom_cons_ok {i : Instr} (h : check i = .ok) (n : Nat) (out : List Byte) (is : List Instr) :
    assembleFrom n out (i :: is) = assembleFrom (n + 1) (out ++ serialize (pack i h)) is := by
  simp [assembleFrom, encodeRecord_ok i h]

theorem assembleFrom_cons_err {i : Instr} {e : CheckError} (h : check i = .err e) (n : Nat) (out : List Byte)
    (is : List Instr) : assembleFrom n out (i :: is) = .err (reportOf n i e) := by
  simp [assembleFrom, encodeRecord_err i e h]

/-! The whole program. -/

theorem assembleFrom_of_check_ok {is : List Instr} (h : ∀ i ∈ is, check i = .ok) (n : Nat) (out : List Byte) :
    assembleFrom n out is = .ok (out ++ programBytes is) := by
  induction is generalizing n out with
  | nil => simp [assembleFrom]
  | cons i is ih =>
    obtain ⟨hi, his⟩ := List.forall_mem_cons.1 h
    rw [assembleFrom_cons_ok hi, ih his, programBytes_cons hi, List.append_assoc]

theorem assemble_of_check_ok {is : List Instr} (h : ∀ i ∈ is, check i = .ok) :
    assemble is = .ok (programBytes is) := assembleFrom_of_check_ok h 0 []

/-- The first record that fails decides the result; what follows it plays no part (R167). -/
theorem assemble_of_first_failing {before : List Instr} {i : Instr} {e : CheckError}
    (hbefore : ∀ j ∈ before, check j = .ok) (hi : check i = .err e) (after : List Instr) :
    assemble (before ++ i :: after) = .err (reportOf before.length i e) := by
  rw [assemble, assembleFrom_append _ (assembleFrom_of_check_ok hbefore 0 []), assembleFrom_cons_err hi, Nat.zero_add]

/-- A program with a record that fails has a first one. -/
theorem exists_first_failing {is : List Instr} (h : ∃ i ∈ is, check i ≠ .ok) :
    ∃ before i after e, is = before ++ i :: after ∧ (∀ j ∈ before, check j = .ok) ∧ check i = .err e := by
  obtain ⟨bad, hmem, hbad⟩ := h
  have hsome : (is.find? fun i => decide (check i ≠ .ok)).isSome = true :=
    List.find?_isSome.2 ⟨bad, hmem, decide_eq_true hbad⟩
  obtain ⟨i, hi⟩ := Option.isSome_iff_exists.1 hsome
  obtain ⟨hfail, before, after, rfl, hbefore⟩ := List.find?_eq_some_iff_append.1 hi
  obtain ⟨e, he⟩ := (check_cases i).resolve_left (of_decide_eq_true hfail)
  exact ⟨before, i, after, e, rfl, fun j hj => by simpa using hbefore j hj, he⟩

/-- With a record that fails, `assemble` reports the index of the first one. -/
theorem assemble_of_failing {is : List Instr} (h : ∃ i ∈ is, check i ≠ .ok) :
    ∃ r, assemble is = .err r ∧ ∃ hr : r.index < is.length, check is[r.index] ≠ .ok ∧
      ∀ j (hj : j < r.index), check is[j] = .ok := by
  obtain ⟨before, i, after, e, rfl, hbefore, he⟩ := exists_first_failing h
  refine ⟨_, assemble_of_first_failing hbefore he after, by simp, by simp [he], fun j hj => ?_⟩
  have hj' : j < before.length := by simpa using hj
  rw [List.getElem_append_left hj']
  exact hbefore _ (List.getElem_mem hj')

/-- `assemble` succeeds exactly on the programs all of whose records pass the check. -/
theorem assemble_eq_ok_iff (is : List Instr) (bytes : List Byte) :
    assemble is = .ok bytes ↔ (∀ i ∈ is, check i = .ok) ∧ bytes = programBytes is := by
  refine ⟨fun h => ?_, fun ⟨hok, hbytes⟩ => by rw [assemble_of_check_ok hok, hbytes]⟩
  by_cases hfail : ∃ i ∈ is, check i ≠ .ok
  · obtain ⟨r, hr, -⟩ := assemble_of_failing hfail
    simp [hr] at h
  · push Not at hfail
    rw [assemble_of_check_ok hfail, Assembled.ok.injEq] at h
    exact ⟨hfail, h.symm⟩

/-- A program given by position assembles, and block k is the word of its record k. -/
theorem assemble_ofFn {n : Nat} {rs : Fin n → Instr} (hok : ∀ k, check (rs k) = .ok) :
    ∃ x, assemble (List.ofFn rs) = .ok x ∧
      ∀ k : Fin n, (x.drop (13 * k)).take 13 = serialize (pack (rs k) (hok k)) := by
  have hall : ∀ i ∈ List.ofFn rs, check i = .ok := List.forall_mem_ofFn_iff.2 hok
  refine ⟨_, assemble_of_check_ok hall, fun k => ?_⟩
  rw [programBytes_block hall (by simp)]
  simp

end Sys2Proof.Machine
end

section
/-! SUPPORT. Runs of host operations (R30, R57): one Push, Finish, and the Pushes of a whole program. -/

namespace Sys2Proof.Machine

/-- What a Push completes with does not depend on the operations after it. -/
theorem push_withInbox {i : Instr} {s t : State} (h : push i s = .next t) (ops : List HostOp) :
    push i (s.withInbox ops) = .next (t.withInbox ops) := by
  obtain ⟨hp, ⟨hph, hroom, hi, rfl⟩ | ⟨hph, hroom, e, he, rfl⟩ | ⟨hph, rfl⟩⟩ := push_next_cases i s t h
  · exact push_accept i (s.withInbox ops) hp hph hroom hi
  · exact push_fail i (s.withInbox ops) e hp hph hroom he
  · exact push_discard i (t.withInbox ops) hp hph

theorem core_run_push {i : Instr} {s t : State} (h : push i s = .next t) (k : Nat) (ops : List HostOp) :
    Sys2Proof.core.run (k + 1) (s.withInbox (.push i :: ops)) = Sys2Proof.core.run k (t.withInbox ops) := by
  refine core_run_next k _ _ ?_
  rw [step_push _ i ops rfl, exec_eq_push, State.withInbox_withInbox, push_withInbox h]

/-- Finish returns its result and leaves every field of the block initial (R147, R148). -/
theorem step_finish_initial {s : State} {rest : List HostOp} (h : s.inbox = .finish :: rest) :
    step s = .next { State.reset with
      params := s.params, inbox := rest, outbox := s.outbox ++ [finishResult s] } :=
  step_finish s rest h

/-- In FAILED the rest of a program is discarded, and Finish returns the report that stands (R148, R149). -/
theorem core_run_failed {s : State} {is : List Instr} (rest : List HostOp) (hph : s.phase = .failed)
    (hp : ∀ i ∈ is, s.params.presentable i = true) :
    Sys2Proof.core.run (is.length + 1) (s.withInbox (is.map .push ++ .finish :: rest)) =
      .next { State.reset with
        params := s.params, inbox := rest, outbox := s.outbox ++ [.rejected s.err] } := by
  induction is with
  | nil =>
    rw [← finishResult_failed s hph]
    exact core_run_next 0 _ _ (step_finish_initial rfl)
  | cons i is ih =>
    obtain ⟨hi, his⟩ := List.forall_mem_cons.1 hp
    exact (core_run_push (push_discard i s hi hph) _ _).trans (ih his)

theorem hasRoom_of_lt {p : Params} {idx : Nat} (h : ∀ n, p.maxRec = some n → idx < n) : p.hasRoom idx = true := by
  unfold Params.hasRoom
  split
  · rfl
  next n hn => exact decide_eq_true (h n hn)

/-- From COLLECT, with capacity for the program, the Pushes and Finish return what the loop of `assemble` gives from the
index and the stream reached. -/
theorem core_run_collect {s : State} {is : List Instr} (rest : List HostOp) (hph : s.phase = .collect)
    (hoff : ∀ c ∈ s.obuf, c.1 < 13 * s.idx) (hcap : ∀ n, s.params.maxRec = some n → s.idx + is.length ≤ n)
    (hp : ∀ i ∈ is, s.params.presentable i = true) :
    Sys2Proof.core.run (is.length + 1) (s.withInbox (is.map .push ++ .finish :: rest)) =
      .next { State.reset with
        params := s.params
        inbox := rest
        outbox := s.outbox ++ [(assembleFrom s.idx (Memory.bytes s.obuf) is).response] } := by
  induction is generalizing s with
  | nil =>
    have hres : (assembleFrom s.idx (Memory.bytes s.obuf) []).response = finishResult s :=
      (finishResult_collect s hph).symm
    rw [hres]
    exact core_run_next 0 _ _ (step_finish_initial rfl)
  | cons i is ih =>
    obtain ⟨hi, his⟩ := List.forall_mem_cons.1 hp
    simp only [List.length_cons] at hcap
    have hroom : s.params.hasRoom s.idx = true := hasRoom_of_lt fun n hn => by have := hcap n hn; omega
    rcases check_cases i with hc | ⟨e, hc⟩
    · refine (core_run_push (push_accept i s hi hph hroom hc) _ _).trans ?_
      rw [assembleFrom_cons_ok hc, ← State.accept_bytes hoff (pack i hc)]
      refine ih hph (State.accept_offset_lt hoff _) (fun n hn => ?_) his
      have := hcap n hn
      rw [State.accept_idx]
      omega
    · refine (core_run_push (push_fail i s e hi hph hroom hc) _ _).trans ?_
      rw [assembleFrom_cons_err hc]
      exact core_run_failed rest rfl his

end Sys2Proof.Machine
end

section
/-! PROOFS. The obligations of the family 42_serialize_assemble. -/

namespace Sys2Proof.Machine

/-! The serializer (R140). -/

/-- Settles O16: a word is the sum of its bytes by place, and its bytes' big-endian value. -/
theorem serializationIsBigEndianAndInvertible : Obligations.SerializationIsBigEndianAndInvertible := by
  refine ⟨fun w => ⟨serialize_length w, fun k hk => ?_, fun k hk => ?_, ?_, deserialize_serialize w⟩,
    le_byte_zero_of_pack, by decide⟩
  · rw [serialize_getElem?_toNat w hk, Word.byte_toNat, Nat.shiftRight_eq_div_pow]
  · rw [serialize_getElem?_toNat w hk, byte_toNat_eq_slice w hk]
  · simpa using (sum_bytes w le_rfl).symm

/-! Push (R143). -/

/-- Settles O23: the accepted word is written at 13 * idx, which under the invariant is the end of the stream. -/
theorem acceptedPushAppendsTheWord : Obligations.AcceptedPushAppendsTheWord := by
  intro i s h hs
  refine ⟨_, exec_accept hs h, rfl, rfl, rfl, fun k hk => s.read_accept_inside _ hk,
    fun a ha => s.read_accept_outside _ ha, fun hinv => ?_⟩
  obtain ⟨-, hph, hroom⟩ := hs
  exact ⟨State.accept_bytes hinv.offset_lt _, (hinv.accept hph hroom h).bytes_length hph⟩

/-- Settles O24: the state of a failing Push is `State.raise`, and an overflow names an operand above its field's
maximum. -/
theorem failingPushLatchesTheReport : Obligations.FailingPushLatchesTheReport := by
  intro i s hp hph hroom
  have hexec : ∀ e, check i = .err e → exec i s = .next (s.raise i e) := fun e he => by
    rw [exec_eq_push, push_fail i s e hp hph hroom he]
  refine ⟨fun f v m he => ⟨hexec _ he, ?_⟩, fun hshape => hexec _ (check_of_misshaped hshape)⟩
  obtain ⟨habsurd, -⟩ | ⟨g, x, hgx, -, -, -, hvalue, hlt⟩ := check_err i _ he
  · cases habsurd
  · cases hgx
    exact ⟨hvalue, rfl, hlt⟩

/-- Settles O28: a Push that completes accepted, failed or discarded the record. -/
theorem frameOfAnyRecord : Obligations.FrameOfAnyRecord := by
  intro i s t h
  rw [exec_eq_push] at h
  obtain ⟨hparams, hinbox, houtbox⟩ := push_frame h
  refine ⟨hparams, hinbox, houtbox, ?_⟩
  obtain ⟨-, ⟨hph, -, hi, rfl⟩ | ⟨hph, -, e, he, rfl⟩ | ⟨hph, rfl⟩⟩ := push_next_cases i s t h
  · refine ⟨fun _ _ => ⟨hph, rfl, rfl, fun a ha => s.read_accept_outside _ ha⟩,
      fun _ hfail => absurd hi hfail, fun hf => ?_⟩
    simp [hph] at hf
  · refine ⟨fun _ hok => ?_, fun _ _ => ⟨rfl, rfl, fun _ => rfl⟩, fun hf => ?_⟩
    · simp [he] at hok
    · simp [hph] at hf
  · refine ⟨fun hc => ?_, fun hc => ?_, fun _ => rfl⟩ <;> simp [hph] at hc

/-- Settles O25, the discard case of Push. -/
theorem pushInFailedIsDiscarded : Obligations.PushInFailedIsDiscarded := by
  intro i s hp hph
  rw [exec_eq_push, push_discard i s hp hph]

/-- Settles O26: there is no room at idx = MAXREC, which only Push asks for. -/
theorem pushAtCapacityHasNoStep : Obligations.PushAtCapacityHasNoStep := by
  intro s n hn hidx hph
  have hfull : s.params.hasRoom s.idx = false := by simp [Params.hasRoom, hn, hidx]
  refine ⟨fun i hp => ?_, fun i rest hp hs => ?_, fun rest => ⟨_, step_finish _ rest rfl⟩,
    fun rest => ⟨_, step_reset _ rest rfl⟩⟩
  · rw [exec_eq_push, push_full i s hp hph hfull]
  · rw [step_push s i rest hs, exec_eq_push, push_full i (s.withInbox rest) hp hph hfull]

/-- Settles O43: only a Push can leave COLLECT for FAILED, and of a Push's three effects only failing does. -/
theorem onlyAFailingPushEntersFailed : Obligations.OnlyAFailingPushEntersFailed := by
  intro s t hs ht hstep
  obtain ⟨op, rest, hin, hop⟩ := step_next_cases s t hstep
  obtain ⟨-, rfl⟩ | ⟨i, rfl, hpush⟩ | ⟨-, rfl⟩ | ⟨i, -, -, rfl⟩ := hop
  case inr.inl =>
    refine ⟨i, rest, hin, ?_⟩
    obtain ⟨-, ⟨-, -, _, rfl⟩ | ⟨-, -, e, he, -⟩ | ⟨hf, -⟩⟩ := push_next_cases i _ t hpush
    · simp [hs] at ht
    · simp [he]
    · simp [hs] at hf
  all_goals simp [hs] at ht

/-- Settles O46: a step faults only without room, and no step changes the parameters. -/
theorem unboundedBlockNeverFaults : Obligations.UnboundedBlockNeverFaults := by
  intro s hmax k f
  induction k generalizing s with
  | zero => simp
  | succ k ih =>
    cases hstep : step s with
    | next t =>
      rw [core_run_next k s t hstep]
      exact ih t (by rw [step_params hstep, hmax])
    | fault f' =>
      obtain ⟨-, -, -, -, -, hfull⟩ := step_fault s f' hstep
      simp [Params.hasRoom, hmax] at hfull
    | refused r => simp [core_run_refused k s r hstep]

/-! Finish and Encode1 (R142, R147, R148). -/

/-- Settles O30: under the invariant the offsets in use are the first 13 * idx, in order. -/
theorem finishInCollectDeliversTheStream : Obligations.FinishInCollectDeliversTheStream := by
  intro s rest hs hph hinv
  refine ⟨?_, hinv.bytes_length hph, fun k _ => ?_, fun hidx => ?_⟩
  · rw [step_finish_initial hs, finishResult_collect s hph]
  · rw [Memory.bytes_getElem?_eq_read (hinv.offsets hph), Nat.zero_add]
  · exact List.length_eq_zero_iff.1 (by rw [hinv.bytes_length hph, hidx])

/-- Settles O31: in FAILED the result of Finish is the report that stands. -/
theorem finishInFailedReturnsTheReport : Obligations.FinishInFailedReturnsTheReport := by
  intro s rest r hs hph hr
  rw [step_finish_initial hs, finishResult_failed s hph, hr]

/-- Settles O33: the result is that of `encodeRecord`, and only the host's side changes. -/
theorem encode1ReturnsTheVerdictAndLatchesNothing : Obligations.Encode1ReturnsTheVerdictAndLatchesNothing := by
  intro s i rest hs hp
  have hstep : step s = .next ((s.withInbox rest).respond (encode1Result i)) :=
    (step_encode1 s i rest hs).trans (encode1_presentable i _ hp)
  refine ⟨fun h => ?_, fun e he => ?_⟩
  · rw [hstep, encode1Result, encodeRecord_ok i h]
    rfl
  · rw [hstep, encode1Result, encodeRecord_err i e he]
    rfl

/-! Whole programs (R150 to R154). -/

/-- Settles O48: on success the stream is the bytes of all records, 13 each. -/
theorem assembledLengthIsThirteenPerRecord : Obligations.AssembledLengthIsThirteenPerRecord := by
  refine ⟨fun is bytes h => ?_, fun is hfail => ?_⟩
  · obtain ⟨hok, rfl⟩ := (assemble_eq_ok_iff is bytes).1 h
    exact programBytes_length hok
  · obtain ⟨r, hr, -⟩ := assemble_of_failing hfail
    exact ⟨r, hr⟩

/-- Settles O49: the bytes of the records of both programs, in order. -/
theorem assembledStreamsConcatenate : Obligations.AssembledStreamsConcatenate := by
  refine ⟨fun is js x y hx hy => ?_, fun i j hi hj => ⟨?_, by simp⟩⟩
  · obtain ⟨his, rfl⟩ := (assemble_eq_ok_iff is x).1 hx
    obtain ⟨hjs, rfl⟩ := (assemble_eq_ok_iff js y).1 hy
    rw [assemble_of_check_ok (List.forall_mem_append.2 ⟨his, hjs⟩), programBytes_append]
  · rw [assemble_of_check_ok (by simp [hi, hj]), programBytes_cons hi, programBytes_cons hj, programBytes_nil,
      List.append_nil]

/-- Settles O50: block k depends on the record at position k alone, and the report is that of the first position where a
record fails. -/
theorem assemblyPreservesOrder : Obligations.AssemblyPreservesOrder := by
  refine ⟨fun n rs σ hok => ?_, fun n rs σ hfail => ?_⟩
  · obtain ⟨x, hx, hxk⟩ := assemble_ofFn hok
    obtain ⟨y, hy, hyk⟩ := assemble_ofFn fun k => hok (σ k)
    exact ⟨x, y, hx, hy, fun k => ⟨hxk k, (hyk k).trans (hxk (σ k)).symm⟩⟩
  · obtain ⟨k, hk⟩ := hfail
    have hmem : ∃ i ∈ List.ofFn (fun k => rs (σ k)), check i ≠ .ok :=
      ⟨rs k, List.mem_ofFn.2 ⟨σ.symm k, by simp⟩, hk⟩
    obtain ⟨r, hr, hlt, hbad, hbefore⟩ := assemble_of_failing hmem
    refine ⟨r, hr, ⟨r.index, by simpa using hlt⟩, rfl, by simpa using hbad, fun j hj => ?_⟩
    simpa using hbefore j hj

/-- Settles O52, by induction on the program (`core_run_collect`), from the empty stream at index 0. -/
theorem pushesThenFinishComputeAssemble : Obligations.PushesThenFinishComputeAssemble := by
  intro s is rest hph hidx _ hobuf hcap hp
  have hrun := core_run_collect rest hph (by simp [hobuf]) (by simpa [hidx] using hcap) hp
  rwa [hidx, hobuf] at hrun

end Sys2Proof.Machine
end

section
/-! PROOFS. The obligations of the family 60_exceptions. -/

namespace Sys2Proof.Machine

/-- Everything a step from FAILED can do: Finish and Reset leave the initial state; every other operation changes the
host's side alone. -/
theorem step_failed_cases {s t : State} (hph : s.phase = .failed) (h : step s = .next t) :
    (∃ rest out, (s.inbox = .finish :: rest ∨ s.inbox = .reset :: rest) ∧
      t = { State.reset with params := s.params, inbox := rest, outbox := out }) ∨
    ∃ rest out, t = { s with inbox := rest, outbox := out } := by
  obtain ⟨op, rest, hin, hop⟩ := step_next_cases s t h
  obtain ⟨rfl, rfl⟩ | ⟨i, -, hpush⟩ | ⟨rfl, rfl⟩ | ⟨i, -, -, rfl⟩ := hop
  · exact .inl ⟨rest, s.outbox, .inr hin, rfl⟩
  · obtain ⟨-, ⟨hc, -⟩ | ⟨hc, -⟩ | ⟨-, rfl⟩⟩ := push_next_cases i _ t hpush
    · simp [hph] at hc
    · simp [hph] at hc
    · exact .inr ⟨rest, s.outbox, rfl⟩
  · exact .inl ⟨rest, s.outbox ++ [finishResult (s.withInbox rest)], .inl hin, rfl⟩
  · exact .inr ⟨rest, s.outbox ++ [encode1Result i], rfl⟩

/-- Settles O41: what changes only the host's side stays in FAILED. -/
theorem onlyFinishAndResetLeaveFailed : Obligations.OnlyFinishAndResetLeaveFailed := by
  intro s t hs ht hstep
  obtain ⟨rest, out, hin, rfl⟩ | ⟨rest, out, rfl⟩ := step_failed_cases hs hstep
  · exact ⟨rest, hin, rfl, rfl, rfl, rfl, rfl⟩
  · simp [hs] at ht

/-- Settles O42: Finish and Reset lead to COLLECT, and everything else changes only the host's side. -/
theorem firstReportIsKept : Obligations.FirstReportIsKept := by
  intro s t hs ht hstep
  obtain ⟨rest, out, -, rfl⟩ | ⟨rest, out, rfl⟩ := step_failed_cases hs hstep
  · simp at ht
  · exact ⟨rfl, rfl, rfl⟩

/-- Settles O51: the loop passes the records before it and stops at the failing one (`assemble_of_first_failing`). -/
theorem lowestFailingRecordIsReported : Obligations.LowestFailingRecordIsReported :=
  fun _ _ _ after hbefore hi => assemble_of_first_failing hbefore hi after

end Sys2Proof.Machine
end

section
/-! SUPPORT. What a completed Push of a passing record leaves, and one cycle with rst 1 (R31, R190). -/

namespace Sys2Proof.Machine

/-- In COLLECT a record that passes the check completes only by being accepted (R144). -/
theorem exec_next_eq_accept {i : Instr} {s t : State} (hph : s.phase = .collect) (hi : check i = .ok)
    (h : exec i s = .next t) : t = s.accept (pack i hi) := by
  rw [exec_eq_push] at h
  obtain ⟨-, ⟨-, -, -, rfl⟩ | ⟨-, -, e, he, -⟩ | ⟨hf, -⟩⟩ := push_next_cases i s t h
  · rfl
  · simp [hi] at he
  · simp [hph] at hf

/-- No byte transfers exactly where none is offered or none is taken. -/
theorem outTransfer_eq_none (inp : PortIn) (p : PortState) :
    outTransfer inp p = none ↔ outBeat inp p = none ∨ inp.outReady = false := by
  cases ho : inp.outReady <;> simp [outTransfer, ho]

/-- The done transfer happens exactly where done is offered and taken. -/
theorem doneTransfer_eq_true (inp : PortIn) (p : PortState) :
    doneTransfer inp p = true ↔ inp.doneReady = true ∧ ∃ ok, doneBeat inp p = some ok := by
  simp [doneTransfer, Option.isSome_iff_exists]

theorem doneTransfer_eq_false (inp : PortIn) (p : PortState) :
    doneTransfer inp p = false ↔ doneBeat inp p = none ∨ inp.doneReady = false := by
  cases hd : inp.doneReady <;> simp [doneTransfer, hd]

/-- The block's state after a cycle with rst 1: initial, and after a done transfer with the result returned (R190). -/
def afterReset (inp : PortIn) (p : PortState) : PortState :=
  { core := if doneTransfer inp p then finish p.core else p.core.toInitial, busy := none, draw := p.draw + 1 }

/-- With rst 1 the command inputs play no part in the cycle (R190). -/
theorem portCycle_reset {inp : PortIn} {p : PortState} (hc : inp.carried p.core.params = true)
    (hr : inp.rst = true) : portCycle inp p = .next (afterReset inp p) := by
  simp [portCycle, hc, hr, afterReset]

theorem afterReset_core_of_done {inp : PortIn} {p : PortState} (h : doneTransfer inp p = true) :
    (afterReset inp p).core = finish p.core := by simp [afterReset, h]

theorem afterReset_core_of_no_done {inp : PortIn} {p : PortState} (h : doneTransfer inp p = false) :
    (afterReset inp p).core = p.core.toInitial := by simp [afterReset, h]

/-- Returning the result and becoming initial can be done in either order: they change different fields. -/
theorem finish_eq_respond_toInitial (s : State) : finish s = s.toInitial.respond (finishResult s) := rfl

end Sys2Proof.Machine
end

section
/-! PROOFS. The obligations of the family 70_reset_and_hazards. -/

namespace Sys2Proof.Machine

/-- Settles O29: both states accept the record, and the 13 offsets read the bytes of its word. -/
theorem encodingDependsOnTheRecordAlone : Obligations.EncodingDependsOnTheRecordAlone := by
  intro i s t s' t' hs ht hi hexecS hexecT k hk
  obtain rfl := exec_next_eq_accept hs hi hexecS
  obtain rfl := exec_next_eq_accept ht hi hexecT
  rw [s.read_accept_inside _ hk, t.read_accept_inside _ hk]

/-- Settles O32: the step of Reset is `State.toInitial`, and the host's side loses the operation alone. -/
theorem resetEstablishesTheInitialState : Obligations.ResetEstablishesTheInitialState :=
  fun s rest hs => step_reset s rest hs

/-- Settles O56: with rst 1 the state after the cycle is `afterReset`, and the transfers on done and out are those of any
other cycle. -/
theorem portResetTakesPrecedence : Obligations.PortResetTakesPrecedence := by
  intro inp p sent hc hr
  have hcycle : portCycle inp p = .next (afterReset inp p) := portCycle_reset hc hr
  have hrun := portRun_next inp [] p _ sent hcycle
  refine ⟨afterReset inp p, hcycle, rfl, rfl, fun hnone => ?_, fun ok hok hd => ?_, fun beat hbeat ho => ?_,
    fun hnone => ?_⟩
  · exact afterReset_core_of_no_done ((doneTransfer_eq_false inp p).2 hnone)
  · rw [afterReset_core_of_done ((doneTransfer_eq_true inp p).2 ⟨hd, ok, hok⟩), finish_eq_respond_toInitial]
  · rw [hrun, (outTransfer_eq_some inp p beat.byte).2 ⟨ho, beat, hbeat, rfl⟩]
    rfl
  · rw [hrun, (outTransfer_eq_none inp p).2 hnone]
    simp [portRun]

end Sys2Proof.Machine
end

section
/-! SUPPORT. The table decoder on packed words (R53, R131), and on the words of each layout written as numbers. -/

namespace Sys2Proof.Machine

/-- A packed word, taken as a number, decodes to its record. -/
theorem decodeTableWord_pack (i : Instr) (h : check i = .ok) : decodeTableWord 104 (pack i h).toNat = some i := by
  have hdecode : decode (serialize (pack i h)) = .record i [] :=
    (decode_eq_record_iff _ [] i).2 ⟨h, (List.append_nil _).symm⟩
  rw [decodeTableWord, if_pos ⟨le_rfl, (pack i h).isLt⟩, BitVec.ofNat_toNat, BitVec.setWidth_eq, hdecode]

theorem decodeTableWord_f3 {i : Instr} {b c : Nat} (hf : i.kind.format = .f3) (ho : i.ops = Operands.bc b c)
    (hb : b ≤ 63) (hc : c ≤ 4294967295) :
    decodeTableWord 104 ((i.kind.opcode <<< 99) ||| (b <<< 93) ||| c) = some i := by
  obtain ⟨h, hn, -⟩ := word_of_f3 hf ho hb hc
  rw [← hn, decodeTableWord_pack i h]

theorem decodeTableWord_f4 {i : Instr} {b c d : Nat} (hf : i.kind.format = .f4) (ho : i.ops = Operands.bcd b c d)
    (hb : b ≤ 63) (hc : c ≤ 4294967295) (hd : d ≤ 4294967295) :
    decodeTableWord 104 ((i.kind.opcode <<< 99) ||| (b <<< 93) ||| (c <<< 61) ||| d) = some i := by
  obtain ⟨h, hn, -⟩ := word_of_f4 hf ho hb hc hd
  rw [← hn, decodeTableWord_pack i h]

/-- A word with a kind's opcode in field A and a gap that is not clear is refused under that kind's name (R81). -/
theorem decodeWord_of_gap {w : Word} {k : Kind} (ha : w.slice 103 99 = k.opcode) (hgap : k.format.gap w ≠ 0) :
    decodeWord w = .rejected (.nonZeroPadding k) := by
  rw [decodeWord_of_opcode ha, if_neg hgap]

end Sys2Proof.Machine
end

section
/-! PROOFS. The obligations of the family other. -/

namespace Sys2Proof.Machine

/-- Settles O20: the four numbers of S1, S2, S3 and S5 are the layouts of their records; the word of V74 has opcode 4 and
a bit in the gap, and the word of V75 has no kind's opcode. -/
theorem wordsFromTheLayoutDecode : Obligations.WordsFromTheLayoutDecode := by
  refine ⟨?_, ?_, ?_, ?_, decodeWord_of_gap ?_ ?_, decodeWord_of_unassigned ?_⟩
  · exact decodeTableWord_f3 (i := .loadConst (Operands.bc 31 140)) rfl rfl (by decide) (by decide)
  · exact decodeTableWord_f4 (i := .readMem (Operands.bcd 29 344 265)) rfl rfl (by decide) (by decide) (by decide)
  · exact decodeTableWord_f3 (i := .writeMem (Operands.bc 63 403)) rfl rfl (by decide) (by decide)
  · exact decodeTableWord_f3 (i := .not (Operands.bc 45 240)) rfl rfl (by decide) (by decide)
  all_goals decide

end Sys2Proof.Machine
end
